-- ==== Sys2Proof/Word.lean ====
section
/-! DEFINITION. The word types of the core (spec/00_scope.md R6, R8). -/

namespace Sys2Proof

/-- A memory cell, a register and an opcode: 16 bits (R6). -/
abbrev Word := BitVec 16

/-- The I-class immediate: 8 bits (R52). -/
abbrev Byte := BitVec 8

/-- A register field of an instruction: three bits, r0 to r7 (R13). -/
abbrev RegField := BitVec 3

/-- A register index of the window: four bits, r0 to r15 (R12, R29). -/
abbrev RegIndex := BitVec 4

end Sys2Proof
end

