-- ==== Sys2Proof/Syntax.lean ====
section
/-! DEFINITION. The instructions: one constructor per row of spec/opcode_table.json (spec/30_encoding.md R55, R56).

The eight instructions carry their decoded fields. A row of a reserved space carries the whole word, because the
spec gives such a word no fields: the fault it raises reports the word (spec/60_exceptions.md R82). -/

namespace Sys2Proof

inductive Instr where
  /-- AND rd, ra, rb (R71). -/
  | and (dst opa opb : RegField)
  /-- OR rd, ra, rb (R72). -/
  | or (dst opa opb : RegField)
  /-- XOR rd, ra, rb (R73). -/
  | xor (dst opa opb : RegField)
  /-- ADD rd, ra, rb (R65). -/
  | add (dst opa opb : RegField)
  /-- SUB rd, ra, rb (R66). -/
  | sub (dst opa opb : RegField)
  /-- CMP rd, ra, rb: the field dst is present and ignored (R51, R67). -/
  | cmp (dst opa opb : RegField)
  /-- LDL rd, imm8 (R77). -/
  | ldl (srcdst : RegField) (imm : Byte)
  /-- LDH rd, imm8 (R78). -/
  | ldh (srcdst : RegField) (imm : Byte)
  /-- An A-class word of either group with typ = 3 (R56, R84). -/
  | invalidAClassTyp3 (insn : Word)
  /-- An I-class word with opc 2 or 3 (R56, R84). -/
  | invalidIClassOpc2to3 (insn : Word)
  /-- An I-class word with opc 4 to 7 (R56, R84). -/
  | invalidIClassOpc4to7 (insn : Word)
  /-- A word of class 0x02 or 0x03 (R56, R83). -/
  | unimplementedCls02to03 (insn : Word)
  /-- A word of class 0x04 to 0x07 (R56, R83). -/
  | unimplementedCls04to07 (insn : Word)
  /-- A word of class 0x10 to 0x1F (R56, R83). -/
  | unimplementedCls10to1F (insn : Word)
deriving DecidableEq, Repr

/-- The three kinds of class the decoder tells apart (spec/10_state.md R27). -/
inductive InstrKind where
  | aClass
  | iClass
  | unimpl
deriving DecidableEq, Repr

end Sys2Proof
end

