-- ==== Sys2Proof/WellFormed.lean ====
section
/-! DEFINITION. Which terms of Instr stand for a word of the machine.

Every combination of register fields and every immediate is valid (spec/30_encoding.md R60), so the eight
instructions need no check; a reserved row's word must lie in that row's space (R55, R56; the match and mask of
spec/opcode_table.json). -/

namespace Sys2Proof

/-- The term is one the decoder can answer. -/
def wellFormed : Instr → Bool
  | .and _ _ _ => true
  | .or _ _ _ => true
  | .xor _ _ _ => true
  | .add _ _ _ => true
  | .sub _ _ _ => true
  | .cmp _ _ _ => true
  | .ldl _ _ => true
  | .ldh _ _ => true
  | .invalidAClassTyp3 insn => insn &&& 0xF003#16 == 0x0003#16
  | .invalidIClassOpc2to3 insn => insn &&& 0xF000#16 == 0x5000#16
  | .invalidIClassOpc4to7 insn => insn &&& 0xE000#16 == 0x6000#16
  | .unimplementedCls02to03 insn => insn &&& 0xF000#16 == 0x1000#16
  | .unimplementedCls04to07 insn => insn &&& 0xE000#16 == 0x2000#16
  | .unimplementedCls10to1F insn => insn &&& 0x8000#16 == 0x8000#16

/-- The eight instructions of the core, as against the words that only fault (R2, R60). -/
def isInstruction : Instr → Bool
  | .and _ _ _ => true
  | .or _ _ _ => true
  | .xor _ _ _ => true
  | .add _ _ _ => true
  | .sub _ _ _ => true
  | .cmp _ _ _ => true
  | .ldl _ _ => true
  | .ldh _ _ => true
  | .invalidAClassTyp3 _ => false
  | .invalidIClassOpc2to3 _ => false
  | .invalidIClassOpc4to7 _ => false
  | .unimplementedCls02to03 _ => false
  | .unimplementedCls04to07 _ => false
  | .unimplementedCls10to1F _ => false

/-- The arithmetic group ADD, SUB, CMP: the only instructions that write C and V (spec/10_state.md R18). -/
def isArithmetic : Instr → Bool
  | .add _ _ _ => true
  | .sub _ _ _ => true
  | .cmp _ _ _ => true
  | .and _ _ _ => false
  | .or _ _ _ => false
  | .xor _ _ _ => false
  | .ldl _ _ => false
  | .ldh _ _ => false
  | .invalidAClassTyp3 _ => false
  | .invalidIClassOpc2to3 _ => false
  | .invalidIClassOpc4to7 _ => false
  | .unimplementedCls02to03 _ => false
  | .unimplementedCls04to07 _ => false
  | .unimplementedCls10to1F _ => false

end Sys2Proof
end

