-- ==== Sys2Proof/Decode.lean ====
section
/-! DEFINITION. The decoder block and the encoder (spec/10_state.md R27; spec/30_encoding.md R45 to R62).

The decoder is a total function of one 16-bit word (R45, R60). It refuses a word by the name of the reserved row the
word falls in. -/

namespace Sys2Proof

/-- cls = insn[15:11] (R47). -/
def clsOf (insn : Word) : BitVec 5 := insn.extractLsb' 11 5

/-- code = insn[11] (R49). -/
def codeOf (insn : Word) : BitVec 1 := insn.extractLsb' 11 1

/-- dst = insn[10:8] (R49). -/
def dstOf (insn : Word) : RegField := insn.extractLsb' 8 3

/-- opa = insn[7:5] (R49). -/
def opaOf (insn : Word) : RegField := insn.extractLsb' 5 3

/-- opb = insn[4:2] (R49). -/
def opbOf (insn : Word) : RegField := insn.extractLsb' 2 3

/-- typ = insn[1:0] (R49). -/
def typOf (insn : Word) : BitVec 2 := insn.extractLsb' 0 2

/-- opc = insn[13:11]: the spec's reading of the damaged source (R53, C1, D1). DEDUCED, unsafe: log entry 5. -/
def opcOf (insn : Word) : BitVec 3 := insn.extractLsb' 11 3

/-- srcdst = insn[10:8] (R52). -/
def srcdstOf (insn : Word) : RegField := insn.extractLsb' 8 3

/-- imm = insn[7:0], unsigned (R52, R54). -/
def immOf (insn : Word) : Byte := insn.extractLsb' 0 8

/-- Class dispatch: A when cls is 0x00 or 0x01, I when cls is in 0x08..0x0F, else unimplemented (R27, R47). -/
def kindOf (cls : BitVec 5) : InstrKind :=
  if cls.toNat ≤ 0x01 then .aClass
  else if 0x08 ≤ cls.toNat ∧ cls.toNat ≤ 0x0F then .iClass
  else .unimpl

/-- The A-class word by (code, typ) (R50). -/
def decodeA (insn : Word) : Instr :=
  if typOf insn = 3#2 then .invalidAClassTyp3 insn
  else if codeOf insn = 0#1 then
    if typOf insn = 0#2 then .and (dstOf insn) (opaOf insn) (opbOf insn)
    else if typOf insn = 1#2 then .or (dstOf insn) (opaOf insn) (opbOf insn)
    else .xor (dstOf insn) (opaOf insn) (opbOf insn)
  else
    if typOf insn = 0#2 then .add (dstOf insn) (opaOf insn) (opbOf insn)
    else if typOf insn = 1#2 then .sub (dstOf insn) (opaOf insn) (opbOf insn)
    else .cmp (dstOf insn) (opaOf insn) (opbOf insn)

/-- The I-class word by opc (R53). -/
def decodeI (insn : Word) : Instr :=
  if opcOf insn = 0#3 then .ldl (srcdstOf insn) (immOf insn)
  else if opcOf insn = 1#3 then .ldh (srcdstOf insn) (immOf insn)
  else if (opcOf insn).toNat ≤ 3 then .invalidIClassOpc2to3 insn
  else .invalidIClassOpc4to7 insn

/-- The word of a class that is not decoded, by the opcode table's row (R56). -/
def decodeUnimpl (insn : Word) : Instr :=
  if (clsOf insn).toNat ≤ 0x03 then .unimplementedCls02to03 insn
  else if (clsOf insn).toNat ≤ 0x07 then .unimplementedCls04to07 insn
  else .unimplementedCls10to1F insn

/-- The decoder: every word gives exactly one term (R60). -/
def decode (insn : Word) : Instr :=
  match kindOf (clsOf insn) with
  | .aClass => decodeA insn
  | .iClass => decodeI insn
  | .unimpl => decodeUnimpl insn

/-- The A format, most significant field first (R49, R61). -/
def encodeA (cls : BitVec 5) (dst opa opb : RegField) (typ : BitVec 2) : Word := cls ++ dst ++ opa ++ opb ++ typ

/-- The I format: 01, opc, srcdst, imm (R52, R61). -/
def encodeI (opc : BitVec 3) (srcdst : RegField) (imm : Byte) : Word := 1#2 ++ opc ++ srcdst ++ imm

/-- The encoder: the inverse map (R61); a reserved row's word is the word itself. -/
def encode : Instr → Word
  | .and dst opa opb => encodeA 0x00#5 dst opa opb 0#2
  | .or dst opa opb => encodeA 0x00#5 dst opa opb 1#2
  | .xor dst opa opb => encodeA 0x00#5 dst opa opb 2#2
  | .add dst opa opb => encodeA 0x01#5 dst opa opb 0#2
  | .sub dst opa opb => encodeA 0x01#5 dst opa opb 1#2
  | .cmp dst opa opb => encodeA 0x01#5 dst opa opb 2#2
  | .ldl srcdst imm => encodeI 0#3 srcdst imm
  | .ldh srcdst imm => encodeI 1#3 srcdst imm
  | .invalidAClassTyp3 insn => insn
  | .invalidIClassOpc2to3 insn => insn
  | .invalidIClassOpc4to7 insn => insn
  | .unimplementedCls02to03 insn => insn
  | .unimplementedCls04to07 insn => insn
  | .unimplementedCls10to1F insn => insn

/-- The mask and match of the instruction's row of the opcode table (R55; spec/opcode_table.json). -/
def rowOf : Instr → Word × Word
  | .and _ _ _ => (0xF803#16, 0x0000#16)
  | .or _ _ _ => (0xF803#16, 0x0001#16)
  | .xor _ _ _ => (0xF803#16, 0x0002#16)
  | .add _ _ _ => (0xF803#16, 0x0800#16)
  | .sub _ _ _ => (0xF803#16, 0x0801#16)
  | .cmp _ _ _ => (0xF803#16, 0x0802#16)
  | .ldl _ _ => (0xF800#16, 0x4000#16)
  | .ldh _ _ => (0xF800#16, 0x4800#16)
  | .invalidAClassTyp3 _ => (0xF003#16, 0x0003#16)
  | .invalidIClassOpc2to3 _ => (0xF000#16, 0x5000#16)
  | .invalidIClassOpc4to7 _ => (0xE000#16, 0x6000#16)
  | .unimplementedCls02to03 _ => (0xF000#16, 0x1000#16)
  | .unimplementedCls04to07 _ => (0xE000#16, 0x2000#16)
  | .unimplementedCls10to1F _ => (0x8000#16, 0x8000#16)

/-- The pseudo-instruction LI rd, imm16: LDL with the low byte, then LDH with the high byte (R59). -/
def pseudoLI (rd : RegField) (imm16 : Word) : List Instr :=
  [.ldl rd (imm16.extractLsb' 0 8), .ldh rd (imm16.extractLsb' 8 8)]

/-- The pseudo-instruction CMP ra, rb: CMP with dst = 0 (R59). -/
def pseudoCMP (ra rb : RegField) : Instr := .cmp 0#3 ra rb

/-- The instruction read from a word whose low nbits bits are w. A word is one cell (R45), so nothing longer is an
instruction and no byte order arises (spec/20_memory.md R31). -/
def decodeTableWord (nbits w : Nat) : Option Instr :=
  if nbits ≤ 16 ∧ w < 2 ^ nbits then some (decode (BitVec.ofNat 16 w)) else none

end Sys2Proof
end

