-- ==== Sys2Proof/Config.lean ====
section
/-! DEFINITION. The parameters fixed at construction (spec/00_scope.md R7).

The core leaves no value open besides them ("None needs `any value` or `stuck`: the core is deterministic.",
spec/93_implementation_defined.md), so no free value stands here. -/

namespace Sys2Proof

/-- The I/O hook: an opaque capability that nothing in scope calls (spec/10_state.md R24, D22). The token only tells
one hook from another. DESIGN CHOICE, safe: log entry 2. -/
structure IoHook where
  token : Nat
deriving DecidableEq, Repr

/-- The arguments of the source's construct(start_pc, memory_size, io_hook) (R7, R98). -/
structure Config where
  /-- MEMSIZE: the number of 16-bit cells (R7). -/
  memSize : Nat
  /-- START_PC: the value of pc after reset; it is not validated (R7, D8). -/
  startPc : Nat
  /-- The first content of the I/O hook slot; it may be absent (R7). -/
  ioHook : Option IoHook
deriving DecidableEq, Repr

/-- "Constraint MEMSIZE >= 16" (R7, R98). -/
def Config.legal (c : Config) : Bool := decide (16 ≤ c.memSize)

/-- The parameters of State.reset: START_PC at its default 0x10 (R7), no hook, and 65536 cells. The spec gives no
default of MEMSIZE. DESIGN CHOICE, unsafe: log entry 1 (MEMSIZE), log entry 2 (the hook). -/
def Config.default : Config := { memSize := 65536, startPc := 0x10, ioHook := none }

end Sys2Proof
end

