-- ==== Sys2Proof/Machine/State.lean ====
section
/-! DEFINITION. The architectural state (spec/10_state.md R10), its reset (R26; spec/70_reset_and_hazards.md R98) and
the reasons a step stops (spec/60_exceptions.md R81, R82). -/

namespace Sys2Proof.Machine

/-- One listed memory cell: its address and its 16-bit content. The cell, not the byte, is the unit of addressing, and
no access sees a byte of it (spec/20_memory.md R30, R31). DESIGN CHOICE, safe: log entry 19. -/
abbrev MemCell := Nat × Word

/-- The memory: a linear array of `size` cells (R11). `cells` lists, by rising address, the cells that do not hold
0x0000; every other cell reads 0x0000, which is what memory holds after reset (R26). -/
structure Memory where
  /-- MEMSIZE; it never changes after reset (R11, R99). -/
  size : Nat
  cells : List MemCell
deriving DecidableEq, Repr

/-- The canonical form: addresses strictly rising, inside the memory, no entry equal to what an unlisted cell reads. -/
abbrev Memory.wf (m : Memory) : Prop :=
  m.cells.Pairwise (fun x y => x.1 < y.1) ∧ ∀ c ∈ m.cells, c.2 ≠ 0#16 ∧ c.1 < m.size

/-- The complete architectural state (R10). The registers r0 to r15 are memory cells and have no field (R12); the
flags are four separate bits (R19); the opcode, the decoded fields and raw are not state (R25). -/
structure State where
  /-- Memory: instructions, data and registers alike (R11). -/
  mem : Memory
  /-- The program counter, a natural number (R15). -/
  pc : Nat
  /-- The register-window offset (R17). -/
  W : Nat
  /-- Zero (R18). -/
  Z : Bool
  /-- Sign (R18). -/
  S : Bool
  /-- Carry (R18). -/
  C : Bool
  /-- Overflow (R18). -/
  V : Bool
  /-- The run scope is held (R22). -/
  active : Bool
  /-- The I/O hook slot (R24). -/
  ioHook : Option IoHook
deriving DecidableEq, Repr

/-- The reasons a step stops. No fault changes the state (R81). -/
inductive Fault where
  /-- Raised by exec on a word whose class is not decoded; reports pc and the word (R82, R83). Safe: the spec's own. -/
  | unimplementedInstruction (pc : Nat) (insn : Word)
  /-- Raised by exec on typ = 3 of the A-class and opc 2 to 7 of the I-class; reports pc and the word (R82, R84).
  Safe: the spec's own. -/
  | invalidEncoding (pc : Nat) (insn : Word)
  /-- Raised by step when pc is at or above MEMSIZE, so that there is no cell to fetch (R82, R85). Safe: the spec's
  own. -/
  | outOfBounds (pc : Nat)
  /-- Raised by a register access of exec at an address that does not exist. No state that keeps the window invariant
  of R17 raises it, so no reachable one does. Safe: log entry 4. -/
  | registerOutsideMemory (addr : Nat)
deriving DecidableEq, Repr

/-- The reasons a step has no meaning. -/
inductive Refusal where
  /-- Raised by no arm of exec: every instruction of the opcode table has its meaning. Safe. -/
  | notModelled (mnemonic : String)
deriving DecidableEq, Repr

/-- What a step answers: the closed tagged-variant result of R81. -/
abbrev StepResult := Host.Outcome State Fault Refusal

/-- construct(start_pc, memory_size, io_hook): zero-filled memory, W = 0, all flags 0, active = 0 (R26, R98; active is
the spec's decision D9, log entry 10). -/
def State.construct (c : Config) : State :=
  { mem := { size := c.memSize, cells := [] }
    pc := c.startPc
    W := 0
    Z := false
    S := false
    C := false
    V := false
    active := false
    ioHook := c.ioHook }

/-- The machine right after reset, with the default parameters (R26; log entries 1 and 2). -/
def State.reset : State := State.construct Config.default

end Sys2Proof.Machine
end

