-- ==== Sys2Proof/Machine/Ops.lean ====
section
/-! DEFINITION. The named operations over memory and state (spec/00_scope.md R8; spec/20_memory.md R33, R35). -/

namespace Sys2Proof.Machine

/-- The content of the cell at address a in a list of cells: the first entry for a, else 0x0000 (R26). -/
def lookupCell : List MemCell → Nat → Word
  | [], _ => 0#16
  | (b, v) :: rest, a => if b = a then v else lookupCell rest a

/-- The list with the entry (a, v) put before the first entry of a higher address. -/
def insertCell (a : Nat) (v : Word) : List MemCell → List MemCell
  | [] => [(a, v)]
  | (b, u) :: rest => if a < b then (a, v) :: (b, u) :: rest else (b, u) :: insertCell a v rest

/-- The list without the entries for a. -/
def eraseCell (a : Nat) : List MemCell → List MemCell
  | [] => []
  | (b, u) :: rest => if b = a then eraseCell a rest else (b, u) :: eraseCell a rest

/-- The content of cell a: what the array of R11 holds there. -/
def Memory.cell (m : Memory) (a : Nat) : Word := lookupCell m.cells a

/-- The memory with v in cell a, in canonical form: a cell that holds 0x0000 is not listed. -/
def Memory.put (m : Memory) (a : Nat) (v : Word) : Memory :=
  if v = 0#16 then { m with cells := eraseCell a m.cells }
  else { m with cells := insertCell a v (eraseCell a m.cells) }

/-- MemRead(addr, 16): defined for addr < MEMSIZE, no side effect (R8, R35). -/
def Memory.read (m : Memory) (a : Nat) : Option Word := if a < m.size then some (m.cell a) else none

/-- MemWrite(addr, 16, v): defined for addr < MEMSIZE (R8, R35). -/
def Memory.write (m : Memory) (a : Nat) (v : Word) : Option Memory := if a < m.size then some (m.put a v) else none

/-- The cells start, start + 1, ... written with the words in turn (spec/70_reset_and_hazards.md R106). -/
def Memory.putAll (m : Memory) (start : Nat) : List Word → Memory
  | [] => m
  | w :: ws => (m.put start w).putAll (start + 1) ws

/-- raise: the step ends at once, no state is changed, the fault is reported (R8; spec/60_exceptions.md R81). This is
the whole of taking an exception on this core: nothing is saved, no mode changes, control goes nowhere (R87), and
there is no return from one (R88). -/
def raise (f : Fault) : StepResult := .fault f

/-- The state with another memory. -/
def State.setMem (s : State) (m : Memory) : State := { s with mem := m }

/-- The state with new Z and S (R64). -/
def State.setZS (s : State) (z n : Bool) : State := { s with Z := z, S := n }

/-- The state with new C and V (R18). -/
def State.setCV (s : State) (c v : Bool) : State := { s with C := c, V := v }

/-- pc <- pc + 1: the end of every step that completes; pc never wraps (spec/10_state.md R16; D6, log entry 9). -/
def State.advance (s : State) : State := { s with pc := s.pc + 1 }

/-- The opcode fetched by a step: mem[pc], read afresh each time; none when there is no such cell (R43, R46). -/
def fetch (s : State) : Option Word := s.mem.read s.pc

/-- The code of a fault: 1, 2, 3; 0 is kept for "no fault" (R82, D10). The model's own fault has none. -/
def Fault.code : Fault → Option Nat
  | .unimplementedInstruction _ _ => some 1
  | .invalidEncoding _ _ => some 2
  | .outOfBounds _ => some 3
  | .registerOutsideMemory _ => none

end Sys2Proof.Machine
end

