-- ==== Sys2Proof/Machine/Flags.lean ====
section
/-! DEFINITION. The ALU block: results and flags of the six A-class operations (spec/10_state.md R28;
spec/40_a_class_arith.md R63 to R67; spec/41_a_class_logic.md R70 to R73). -/

namespace Sys2Proof.Machine

/-- The six A-class operations (R28). -/
inductive AluOp where
  | and
  | or
  | xor
  | add
  | sub
  | cmp
deriving DecidableEq, Repr

/-- What the ALU answers: the value for dst, whether it is written, and the new flags (R28). -/
structure AluOut where
  res : Word
  wr : Bool
  Z : Bool
  S : Bool
  C : Bool
  V : Bool
deriving DecidableEq, Repr

/-- sign(x): bit 15 of x mod 65536, the two's-complement reading for an x outside 0..65535 (R8, R63, D3). DEDUCED,
unsafe: log entry 7. -/
def sign (x : Int) : Bool := (x % 65536).toNat.testBit 15

/-- Z from the unbounded integer raw, before any wrap (R64, C4, D24). DEDUCED, unsafe: log entry 8. -/
def zeroOf (raw : Int) : Bool := decide (raw = 0)

/-- The operand as the unsigned integer 0..65535 (R63). -/
def asInt (x : Word) : Int := (x.toNat : Int)

/-- V of ADD, on the signs of a, b and raw (R65). -/
def overflowAdd (sa sb sr : Bool) : Bool := (sa && sb && !sr) || (!sa && !sb && sr)

/-- V of SUB and CMP, on the signs of a, b and raw (R66, R67). -/
def overflowSub (sa sb sr : Bool) : Bool := (sa && !sb && !sr) || (!sa && sb && sr)

/-- ADD (R65). -/
def aluAdd (a b : Word) : AluOut :=
  let raw : Int := asInt a + asInt b
  { res := BitVec.ofInt 16 (if raw > 65535 then raw - 65536 else raw)
    wr := true
    Z := zeroOf raw
    S := sign raw
    C := decide (raw > 65535)
    V := overflowAdd (sign (asInt a)) (sign (asInt b)) (sign raw) }

/-- SUB; C is the unsigned borrow (R66). -/
def aluSub (a b : Word) : AluOut :=
  let raw : Int := asInt a - asInt b
  { res := BitVec.ofInt 16 (if raw < 0 then raw + 65536 else raw)
    wr := true
    Z := zeroOf raw
    S := sign raw
    C := decide (asInt a < asInt b)
    V := overflowSub (sign (asInt a)) (sign (asInt b)) (sign raw) }

/-- CMP: the flags of SUB, nothing written (R67). -/
def aluCmp (a b : Word) : AluOut := { aluSub a b with wr := false }

/-- The shape of AND, OR, XOR: Z and S from the 16-bit result, C and V passed through (R64, R70). -/
def aluLogic (raw : Word) (C V : Bool) : AluOut :=
  { res := raw
    wr := true
    Z := zeroOf (asInt raw)
    S := sign (asInt raw)
    C := C
    V := V }

/-- The ALU (R28): it has no carry input; the old C and V only pass through. -/
def alu (op : AluOp) (a b : Word) (C V : Bool) : AluOut :=
  match op with
  | .and => aluLogic (a &&& b) C V
  | .or => aluLogic (a ||| b) C V
  | .xor => aluLogic (a ^^^ b) C V
  | .add => aluAdd a b
  | .sub => aluSub a b
  | .cmp => aluCmp a b

/-- The four flags written from the ALU's answer. -/
def State.setFlags (s : State) (o : AluOut) : State := (s.setZS o.Z o.S).setCV o.C o.V

end Sys2Proof.Machine
end

