-- ==== Sys2Proof/Machine/Operands.lean ====
section
/-! DEFINITION. The two operand forms, register direct and 8-bit immediate (spec/43_absent_families.md R114), and the
window translator (spec/10_state.md R29; spec/20_memory.md R36). -/

namespace Sys2Proof.Machine

/-- The register index of an instruction's three-bit field: bit 3 is zero (R29). -/
def regIndex (field : RegField) : RegIndex := 0#1 ++ field

/-- The window translator: W + r, plain integer addition, no masking, no wrap (R29, R36). -/
def regAddr (W : Nat) (r : RegIndex) : Nat := W + r.toNat

/-- The address of the register an instruction's field names. -/
def State.operandAddr (s : State) (field : RegField) : Nat := regAddr s.W (regIndex field)

/-- The content of register r: the cell W + r (R12, R36). -/
def State.reg (s : State) (r : RegIndex) : Word := s.mem.cell (regAddr s.W r)

/-- x[field] read, and what is done with the value. An address that does not exist stops the step: log entry 4. -/
def withReg (field : RegField) (s : State) (k : Word → StepResult) : StepResult :=
  match s.mem.read (s.operandAddr field) with
  | some v => k v
  | none => raise (.registerOutsideMemory (s.operandAddr field))

/-- x[field] <- v by an instruction, and what is done in the state after it; never gated by active (R23). -/
def withRegWritten (field : RegField) (v : Word) (s : State) (k : State → StepResult) : StepResult :=
  match s.mem.write (s.operandAddr field) v with
  | some m => k (s.setMem m)
  | none => raise (.registerOutsideMemory (s.operandAddr field))

/-- LDL's merge: (old & 0xFF00) | imm; the immediate is not sign-extended (spec/42_i_class.md R77, R54). -/
def mergeLow (old : Word) (imm : Byte) : Word := (old &&& 0xFF00#16) ||| imm.setWidth 16

/-- LDH's merge: (old & 0x00FF) | (imm << 8) (R78, C3, D2). DEDUCED, unsafe: log entry 6. -/
def mergeHigh (old : Word) (imm : Byte) : Word := (old &&& 0x00FF#16) ||| (imm.setWidth 16 <<< 8)

end Sys2Proof.Machine
end

