-- ==== Sys2Proof/Machine/AClass.lean ====
section
/-! DEFINITION. The A-class instructions (spec/40_a_class_arith.md, spec/41_a_class_logic.md). -/

namespace Sys2Proof.Machine

/-- The A-class handler: read both operands, compute, write dst if the operation writes it, write the flags, advance
pc (spec/30_encoding.md R48; D23, log entry 15). Every read sees the state before the step. -/
def execA (op : AluOp) (dst opa opb : RegField) (s : State) : StepResult :=
  withReg opa s fun a =>
    withReg opb s fun b =>
      let o := alu op a b s.C s.V
      if o.wr then withRegWritten dst o.res s fun t => .next (t.setFlags o).advance
      else .next (s.setFlags o).advance

/-- AND rd, ra, rb (R71). -/
def execAnd (dst opa opb : RegField) (s : State) : StepResult := execA .and dst opa opb s

/-- OR rd, ra, rb (R72). -/
def execOr (dst opa opb : RegField) (s : State) : StepResult := execA .or dst opa opb s

/-- XOR rd, ra, rb (R73). -/
def execXor (dst opa opb : RegField) (s : State) : StepResult := execA .xor dst opa opb s

/-- ADD rd, ra, rb (R65). -/
def execAdd (dst opa opb : RegField) (s : State) : StepResult := execA .add dst opa opb s

/-- SUB rd, ra, rb (R66). -/
def execSub (dst opa opb : RegField) (s : State) : StepResult := execA .sub dst opa opb s

/-- CMP rd, ra, rb: dst is ignored (R51, R67). -/
def execCmp (dst opa opb : RegField) (s : State) : StepResult := execA .cmp dst opa opb s

end Sys2Proof.Machine
end

