-- ==== Sys2Proof/Machine/IClass.lean ====
section
/-! DEFINITION. The I-class immediate byte loads (spec/42_i_class.md). -/

namespace Sys2Proof.Machine

/-- The I-class handler: read srcdst, replace one byte, write srcdst, touch no flag, advance pc (R75, R80). -/
def execI (merge : Word → Byte → Word) (srcdst : RegField) (imm : Byte) (s : State) : StepResult :=
  withReg srcdst s fun old =>
    withRegWritten srcdst (merge old imm) s fun t => .next t.advance

/-- LDL rd, imm8 (R77). -/
def execLdl (srcdst : RegField) (imm : Byte) (s : State) : StepResult := execI mergeLow srcdst imm s

/-- LDH rd, imm8 (R78). -/
def execLdh (srcdst : RegField) (imm : Byte) (s : State) : StepResult := execI mergeHigh srcdst imm s

end Sys2Proof.Machine
end

