-- ==== Sys2Proof/Machine/Reserved.lean ====
section
/-! DEFINITION. The words that only fault (spec/60_exceptions.md R83, R84). The register fields of such a word are not
used: no register is read, nothing is written, pc stays (R81, R84). -/

namespace Sys2Proof.Machine

/-- An A-class word with typ = 3 (R84). -/
def execInvalidAClassTyp3 (insn : Word) (s : State) : StepResult := raise (.invalidEncoding s.pc insn)

/-- An I-class word with opc 2 or 3 (R76, R84). -/
def execInvalidIClassOpc2to3 (insn : Word) (s : State) : StepResult := raise (.invalidEncoding s.pc insn)

/-- An I-class word with opc 4 to 7 (R76, R84). -/
def execInvalidIClassOpc4to7 (insn : Word) (s : State) : StepResult := raise (.invalidEncoding s.pc insn)

/-- A word of class 0x02 or 0x03 (R83). -/
def execUnimplementedCls02to03 (insn : Word) (s : State) : StepResult := raise (.unimplementedInstruction s.pc insn)

/-- A word of class 0x04 to 0x07 (R83). -/
def execUnimplementedCls04to07 (insn : Word) (s : State) : StepResult := raise (.unimplementedInstruction s.pc insn)

/-- A word of class 0x10 to 0x1F (R83). -/
def execUnimplementedCls10to1F (insn : Word) (s : State) : StepResult := raise (.unimplementedInstruction s.pc insn)

end Sys2Proof.Machine
end

