-- ==== Sys2Proof/Machine/Dispatch.lean ====
section
/-! DEFINITION. One arm per constructor of Instr: the dispatch of spec/30_encoding.md R46, R47. -/

namespace Sys2Proof.Machine

/-- What the decoded instruction does in a state. -/
def exec (i : Instr) (s : State) : Host.Outcome State Fault Refusal :=
  match i with
  | .and dst opa opb => Sys2Proof.Machine.execAnd dst opa opb s
  | .or dst opa opb => Sys2Proof.Machine.execOr dst opa opb s
  | .xor dst opa opb => Sys2Proof.Machine.execXor dst opa opb s
  | .add dst opa opb => Sys2Proof.Machine.execAdd dst opa opb s
  | .sub dst opa opb => Sys2Proof.Machine.execSub dst opa opb s
  | .cmp dst opa opb => Sys2Proof.Machine.execCmp dst opa opb s
  | .ldl srcdst imm => Sys2Proof.Machine.execLdl srcdst imm s
  | .ldh srcdst imm => Sys2Proof.Machine.execLdh srcdst imm s
  | .invalidAClassTyp3 insn => Sys2Proof.Machine.execInvalidAClassTyp3 insn s
  | .invalidIClassOpc2to3 insn => Sys2Proof.Machine.execInvalidIClassOpc2to3 insn s
  | .invalidIClassOpc4to7 insn => Sys2Proof.Machine.execInvalidIClassOpc4to7 insn s
  | .unimplementedCls02to03 insn => Sys2Proof.Machine.execUnimplementedCls02to03 insn s
  | .unimplementedCls04to07 insn => Sys2Proof.Machine.execUnimplementedCls04to07 insn s
  | .unimplementedCls10to1F insn => Sys2Proof.Machine.execUnimplementedCls10to1F insn s

end Sys2Proof.Machine
end

