-- ==== Sys2Proof/Machine/Step.lean ====
section
/-! DEFINITION. One step: fetch, decode, execute (spec/30_encoding.md R46). -/

namespace Sys2Proof.Machine

/-- step(): OutOfBounds when there is no cell at pc (R85); else the fetched word is decoded and executed. It reads
active nowhere (R46). The advance of pc is the last part of each instruction's meaning. -/
def step (s : State) : Host.Outcome State Fault Refusal :=
  match fetch s with
  | none => raise (.outOfBounds s.pc)
  | some insn => exec (decode insn) s

/-- The state with the instruction word in the cell at pc, where the next step fetches it. -/
def State.withFetchWord (s : State) (nbits w : Nat) : State :=
  s.setMem (s.mem.put s.pc (BitVec.ofNat 16 (w % 2 ^ nbits)))

end Sys2Proof.Machine
end

