-- ==== Sys2Proof/Machine/HostOps.lean ====
section
/-! DEFINITION. The host interface: every operation by which the outside world acts on the core, each taken between
steps (spec/70_reset_and_hazards.md R103 to R109; spec/20_memory.md R40). -/

namespace Sys2Proof.Machine

/-- The host's reads (R109). -/
inductive HostRead where
  /-- read_register(r). -/
  | register (r : Nat)
  /-- regs(): the sixteen cells of the window. -/
  | regs
  /-- mem[a]. -/
  | cell (a : Nat)
  | pc
  | flags
  | window
  | active
deriving DecidableEq, Repr

/-- The host's operations (R103). -/
inductive HostOp where
  | reset (c : Config)
  | step
  | enterRunScope
  | exitRunScope
  | writeRegisterExternal (r v : Int)
  | setPcExternal (newPc : Nat)
  | loadProgram (words : List Word) (start : Nat)
  | setWindowExternal (w : Nat)
  | rebindIoHook (hook : Option IoHook)
  | read (q : HostRead)
deriving DecidableEq, Repr

/-- What the host is told. -/
inductive HostReply where
  /-- Nothing is reported: the operation was done, or was refused silently (R103). -/
  | silent
  /-- The step faulted, with the report of R82. -/
  | fault (f : Fault)
  /-- The step was refused; no instruction of the table is. -/
  | refused (r : Refusal)
  /-- An oversized load was refused whole: the host is told OutOfBounds (R106, D16). -/
  | loadOutOfBounds
  /-- construct with MEMSIZE below 16 (R98). DESIGN CHOICE, safe: log entry 3. -/
  | resetRefused
  /-- A read of a register or cell that does not exist (R109). DESIGN CHOICE, safe: log entry 3. -/
  | noSuchCell
  | word (v : Word)
  | words (vs : List Word)
  | number (n : Nat)
  | bit (b : Bool)
  | flags (Z S C V : Bool)
deriving DecidableEq, Repr

/-- write_register_external(r, v): a gated MemWrite(W + r, 16, v); a bad r or v is refused silently (R104, D20). -/
def writeRegisterExternal (r v : Int) (s : State) : State :=
  if s.active then s
  else if 0 ≤ r ∧ r ≤ 15 ∧ 0 ≤ v ∧ v ≤ 65535 then
    match s.mem.write (s.W + r.toNat) (BitVec.ofInt 16 v) with
    | some m => s.setMem m
    | none => s
  else s

/-- set_pc_external(new_pc): gated; not validated against MEMSIZE (R105). -/
def setPcExternal (newPc : Nat) (s : State) : State := if s.active then s else { s with pc := newPc }

/-- load_program(words, start): gated; a load that does not fit is refused whole and reported (R106, D16). -/
def loadProgram (words : List Word) (start : Nat) (s : State) : State × HostReply :=
  if s.active then (s, .silent)
  else if start + words.length ≤ s.mem.size then (s.setMem (s.mem.putAll start words), .silent)
  else (s, .loadOutOfBounds)

/-- set_window_external(w): gated; a window that would leave memory is refused silently (R107, D5). Memory is
untouched (R38). -/
def setWindowExternal (w : Nat) (s : State) : State :=
  if s.active then s else if w + 16 ≤ s.mem.size then { s with W := w } else s

/-- rebind_io_hook(hook): gated (R24, R108). -/
def rebindIoHook (hook : Option IoHook) (s : State) : State := if s.active then s else { s with ioHook := hook }

/-- The sixteen register indices in order. -/
def allRegs : List RegIndex :=
  [0#4, 1#4, 2#4, 3#4, 4#4, 5#4, 6#4, 7#4, 8#4, 9#4, 10#4, 11#4, 12#4, 13#4, 14#4, 15#4]

/-- A host read: no side effect, allowed whether active is 0 or 1 (R109, D21). -/
def hostRead (q : HostRead) (s : State) : HostReply :=
  match q with
  | .register r =>
    if r ≤ 15 then
      match s.mem.read (s.W + r) with
      | some v => .word v
      | none => .noSuchCell
    else .noSuchCell
  | .regs => .words (allRegs.map s.reg)
  | .cell a =>
    match s.mem.read a with
    | some v => .word v
    | none => .noSuchCell
  | .pc => .number s.pc
  | .flags => .flags s.Z s.S s.C s.V
  | .window => .number s.W
  | .active => .bit s.active

/-- step as the host sees it: a fault is reported and the state stays as it was (R81). -/
def hostStep (s : State) : State × HostReply :=
  match step s with
  | .next t => (t, .silent)
  | .fault f => (s, .fault f)
  | .refused r => (s, .refused r)

/-- One indivisible host action: the state after it and what the host is told (R103). -/
def hostAct (op : HostOp) (s : State) : State × HostReply :=
  match op with
  | .reset c => if c.legal then (State.construct c, .silent) else (s, .resetRefused)
  | .step => hostStep s
  | .enterRunScope => ({ s with active := true }, .silent)
  | .exitRunScope => ({ s with active := false }, .silent)
  | .writeRegisterExternal r v => (writeRegisterExternal r v s, .silent)
  | .setPcExternal newPc => (setPcExternal newPc s, .silent)
  | .loadProgram words start => loadProgram words start s
  | .setWindowExternal w => (setWindowExternal w s, .silent)
  | .rebindIoHook hook => (rebindIoHook hook s, .silent)
  | .read q => (s, hostRead q s)

/-- The state after a list of host actions in turn. -/
def hostRun : List HostOp → State → State
  | [], s => s
  | op :: ops, s => hostRun ops (hostAct op s).1

end Sys2Proof.Machine
end

