-- ==== Sys2Proof/Safety.lean ====
section
/-! DEFINITION. What a safe state and a safe run are, in the terms claims use. -/

namespace Sys2Proof.Machine

/-- The window invariant: all sixteen registers are cells that exist (spec/10_state.md R17). -/
abbrev State.windowInside (s : State) : Prop := s.W + 16 ≤ s.mem.size

/-- The invariant of every reachable state: the window lies in memory and memory is in canonical form. -/
abbrev State.Inv (s : State) : Prop := s.windowInside ∧ s.mem.wf

/-- The states the host can bring the core to: from any legal construction, by any sequence of host actions, steps
among them (spec/70_reset_and_hazards.md R98, R103). -/
inductive Reachable : State → Prop where
  | construct (c : Config) (h : c.legal = true) : Reachable (State.construct c)
  | act (op : HostOp) (s : State) (h : Reachable s) : Reachable (hostAct op s).1

/-- A step of this outcome completed, in this state. -/
def nextOf (r : StepResult) : Option State :=
  match r with
  | .next t => some t
  | .fault _ => none
  | .refused _ => none

/-- A step of this outcome faulted, for this reason. -/
def faultOf (r : StepResult) : Option Fault :=
  match r with
  | .next _ => none
  | .fault f => some f
  | .refused _ => none

/-- k steps in a row, stopping at the first fault or refusal. -/
def runSteps : Nat → State → StepResult
  | 0, s => .next s
  | k + 1, s =>
    match step s with
    | .next t => runSteps k t
    | .fault f => .fault f
    | .refused r => .refused r

/-- The register an instruction writes when it completes: CMP writes none (spec/30_encoding.md R50, R51;
spec/42_i_class.md R75). -/
def destOf : Instr → Option RegField
  | .and dst _ _ => some dst
  | .or dst _ _ => some dst
  | .xor dst _ _ => some dst
  | .add dst _ _ => some dst
  | .sub dst _ _ => some dst
  | .cmp _ _ _ => none
  | .ldl srcdst _ => some srcdst
  | .ldh srcdst _ => some srcdst
  | .invalidAClassTyp3 _ => none
  | .invalidIClassOpc2to3 _ => none
  | .invalidIClassOpc4to7 _ => none
  | .unimplementedCls02to03 _ => none
  | .unimplementedCls04to07 _ => none
  | .unimplementedCls10to1F _ => none

/-- The value an instruction writes to its destination register when it completes, from the registers as they stand
before the step (spec/30_encoding.md R48; R65, R66, R71 to R73, R77, R78): sums and differences modulo 65536. The shift
of LDH's immediate is the spec's decision D2 (log entry 6). -/
def valueWritten (i : Instr) (s : State) : Option Word :=
  match i with
  | .and _ opa opb => some (s.reg (regIndex opa) &&& s.reg (regIndex opb))
  | .or _ opa opb => some (s.reg (regIndex opa) ||| s.reg (regIndex opb))
  | .xor _ opa opb => some (s.reg (regIndex opa) ^^^ s.reg (regIndex opb))
  | .add _ opa opb => some (s.reg (regIndex opa) + s.reg (regIndex opb))
  | .sub _ opa opb => some (s.reg (regIndex opa) - s.reg (regIndex opb))
  | .cmp _ _ _ => none
  | .ldl srcdst imm => some ((s.reg (regIndex srcdst)).extractLsb' 8 8 ++ imm)
  | .ldh srcdst imm => some (imm ++ (s.reg (regIndex srcdst)).extractLsb' 0 8)
  | .invalidAClassTyp3 _ => none
  | .invalidIClassOpc2to3 _ => none
  | .invalidIClassOpc4to7 _ => none
  | .unimplementedCls02to03 _ => none
  | .unimplementedCls04to07 _ => none
  | .unimplementedCls10to1F _ => none

/-- The I-class instructions LDL and LDH: they write no flag (spec/42_i_class.md R75). -/
def isIClass : Instr → Bool
  | .ldl _ _ => true
  | .ldh _ _ => true
  | .and _ _ _ => false
  | .or _ _ _ => false
  | .xor _ _ _ => false
  | .add _ _ _ => false
  | .sub _ _ _ => false
  | .cmp _ _ _ => false
  | .invalidAClassTyp3 _ => false
  | .invalidIClassOpc2to3 _ => false
  | .invalidIClassOpc4to7 _ => false
  | .unimplementedCls02to03 _ => false
  | .unimplementedCls04to07 _ => false
  | .unimplementedCls10to1F _ => false

/-- The state with other flags. -/
abbrev State.withFlags (s : State) (z n c v : Bool) : State := { s with Z := z, S := n, C := c, V := v }

/-- What no instruction changes: W, active, io_hook and the size of memory (R17, R22, R24, R11). -/
abbrev SameControl (s t : State) : Prop :=
  t.W = s.W ∧ t.active = s.active ∧ t.ioHook = s.ioHook ∧ t.mem.size = s.mem.size

/-- The four flags are as before. -/
abbrev SameFlags (s t : State) : Prop := t.Z = s.Z ∧ t.S = s.S ∧ t.C = s.C ∧ t.V = s.V

/-- Every cell but the one at address a reads as before. -/
abbrev CellsKeptExcept (a : Nat) (s t : State) : Prop := ∀ b, b ≠ a → t.mem.read b = s.mem.read b

/-- Every cell reads as before. -/
abbrev CellsKept (s t : State) : Prop := ∀ b, t.mem.read b = s.mem.read b

end Sys2Proof.Machine
end

