-- ==== Sys2Proof/Certificates/Slice0/Obligations.lean ====
section
/-! DEFINITION. The statements for the provers, from the numbered rules of spec/. A premise `windowInside` is the
invariant of spec/10_state.md R17, which is stated on its own below (StepKeepsStateInvariant,
ConstructedStateMeetsInvariant, ReachableStatesAreSafe). -/

open Sys2Proof Sys2Proof.Machine

/-! Encoding. -/

/-- Words of the spec's own tables decode to what they stand for (spec/30_encoding.md R61, R62;
spec/95_test_vectors.md 2.1): one or more of every family. The I-class words rest on the spec's decision D1 (log
entry 5). -/
def Obligations.SampleWordsDecode : Prop :=
  decode 0x0000#16 = .and 0#3 0#3 0#3 ∧
  decode 0x0029#16 = .or 0#3 1#3 2#3 ∧
  decode 0x07FE#16 = .xor 7#3 7#3 7#3 ∧
  decode 0x0828#16 = .add 0#3 1#3 2#3 ∧
  decode 0x0B29#16 = .sub 3#3 1#3 2#3 ∧
  decode 0x082A#16 = .cmp 0#3 1#3 2#3 ∧
  decode 0x42AB#16 = .ldl 2#3 0xAB#8 ∧
  decode 0x4AAB#16 = .ldh 2#3 0xAB#8 ∧
  decode 0x0003#16 = .invalidAClassTyp3 0x0003#16 ∧
  decode 0x0FFF#16 = .invalidAClassTyp3 0x0FFF#16 ∧
  decode 0x5000#16 = .invalidIClassOpc2to3 0x5000#16 ∧
  decode 0x7FFF#16 = .invalidIClassOpc4to7 0x7FFF#16 ∧
  decode 0x1000#16 = .unimplementedCls02to03 0x1000#16 ∧
  decode 0x3FFF#16 = .unimplementedCls04to07 0x3FFF#16 ∧
  decode 0xFFFF#16 = .unimplementedCls10to1F 0xFFFF#16

/-- The encoder is the inverse map of the decoder on every well-formed term (R60, R61). -/
def Obligations.DecodeOfEncodeIsIdentity : Prop :=
  ∀ i : Instr, wellFormed i = true → decode (encode i) = i

/-- The decoder is total on the 65536 words, answers only well-formed terms, and drops no bit of the word: so no two
words decode to one term, and no two rows of the opcode table overlap (R60). -/
def Obligations.EncodeOfDecodeIsIdentity : Prop :=
  ∀ w : Word, wellFormed (decode w) = true ∧ encode (decode w) = w

/-- The word of each form, as the sum of its parts (R58, R61). The mnemonics are the spec's notation D13; the I-class
selectors rest on D1 (log entry 5). -/
def Obligations.EncodedWordIsSumOfFields : Prop :=
  ∀ (d a b : RegField) (imm : Byte),
    (encode (.and d a b)).toNat = 0x0000 + d.toNat * 256 + a.toNat * 32 + b.toNat * 4 ∧
    (encode (.or d a b)).toNat = 0x0001 + d.toNat * 256 + a.toNat * 32 + b.toNat * 4 ∧
    (encode (.xor d a b)).toNat = 0x0002 + d.toNat * 256 + a.toNat * 32 + b.toNat * 4 ∧
    (encode (.add d a b)).toNat = 0x0800 + d.toNat * 256 + a.toNat * 32 + b.toNat * 4 ∧
    (encode (.sub d a b)).toNat = 0x0801 + d.toNat * 256 + a.toNat * 32 + b.toNat * 4 ∧
    (encode (.cmp d a b)).toNat = 0x0802 + d.toNat * 256 + a.toNat * 32 + b.toNat * 4 ∧
    (encode (.ldl d imm)).toNat = 0x4000 + d.toNat * 256 + imm.toNat ∧
    (encode (.ldh d imm)).toNat = 0x4800 + d.toNat * 256 + imm.toNat

/-- The whole opcode map by mask and match, every operand field read from its own bits, for all fourteen rows of the
opcode table (R49, R52, R55, R56). The I-class rows rest on the spec's decision D1 (log entry 5). -/
def Obligations.RowsOfOpcodeMapDecode : Prop :=
  ∀ w : Word,
    let d := w.extractLsb' 8 3
    let a := w.extractLsb' 5 3
    let b := w.extractLsb' 2 3
    let imm := w.extractLsb' 0 8
    (w &&& 0xF803#16 = 0x0000#16 ↔ decode w = .and d a b) ∧
    (w &&& 0xF803#16 = 0x0001#16 ↔ decode w = .or d a b) ∧
    (w &&& 0xF803#16 = 0x0002#16 ↔ decode w = .xor d a b) ∧
    (w &&& 0xF803#16 = 0x0800#16 ↔ decode w = .add d a b) ∧
    (w &&& 0xF803#16 = 0x0801#16 ↔ decode w = .sub d a b) ∧
    (w &&& 0xF803#16 = 0x0802#16 ↔ decode w = .cmp d a b) ∧
    (w &&& 0xF800#16 = 0x4000#16 ↔ decode w = .ldl d imm) ∧
    (w &&& 0xF800#16 = 0x4800#16 ↔ decode w = .ldh d imm) ∧
    (w &&& 0xF003#16 = 0x0003#16 ↔ decode w = .invalidAClassTyp3 w) ∧
    (w &&& 0xF000#16 = 0x5000#16 ↔ decode w = .invalidIClassOpc2to3 w) ∧
    (w &&& 0xE000#16 = 0x6000#16 ↔ decode w = .invalidIClassOpc4to7 w) ∧
    (w &&& 0xF000#16 = 0x1000#16 ↔ decode w = .unimplementedCls02to03 w) ∧
    (w &&& 0xE000#16 = 0x2000#16 ↔ decode w = .unimplementedCls04to07 w) ∧
    (w &&& 0x8000#16 = 0x8000#16 ↔ decode w = .unimplementedCls10to1F w)

/-! The step. -/

/-- A step fetches the cell at pc and runs exactly the instruction the word decodes to, well-formed as the decoder
answers it; the advance of pc is part of exec, nothing else stands around it (R46). With no cell at pc it faults, by
the spec's decision D4 (log entry 11). -/
def Obligations.StepRunsDecodedInstruction : Prop :=
  ∀ s : State,
    (∀ (w : Word) (i : Instr), s.mem.read s.pc = some w → decode w = i → step s = exec i s) ∧
    (s.mem.read s.pc = none → step s = .fault (.outOfBounds s.pc))

/-- R47: the class is the top five bits; 0x00 and 0x01 go to the A-class handler, 0x08 to 0x0F to the I-class handler,
each followed by pc + 1, and any other class fails with UnimplementedInstruction, the state unchanged. In bit terms: A
is insn[15:12] = 0000, I is insn[15:14] = 01. -/
def Obligations.ClassDispatchOfStep : Prop :=
  ∀ (s : State) (w : Word), s.mem.read s.pc = some w →
    let cls := (w.extractLsb' 11 5).toNat
    (cls = 0x00 ∨ cls = 0x01 → step s = exec (decodeA w) s) ∧
    (0x08 ≤ cls ∧ cls ≤ 0x0F → step s = exec (decodeI w) s) ∧
    (2 ≤ cls ∧ cls ≤ 7 ∨ 0x10 ≤ cls → hostStep s = (s, .fault (.unimplementedInstruction s.pc w))) ∧
    (∀ t, step s = .next t → t.pc = s.pc + 1) ∧
    (cls = 0x00 ∨ cls = 0x01 ↔ w.extractLsb' 12 4 = 0#4) ∧
    (0x08 ≤ cls ∧ cls ≤ 0x0F ↔ w.extractLsb' 14 2 = 1#2)

/-! The results of the eight instructions, with their frames: each says the instruction completes. -/

/-- R71: AND writes the bitwise and of the sources to dst and sets Z and S from it; C, V and everything else but pc
keep their values; a word with cls = 0x00 and typ = 3 is no AND and faults. -/
def Obligations.AndWritesBitwiseAnd : Prop :=
  (∀ w : Word, w &&& 0xF803#16 = 0x0000#16 →
    decode w = .and (w.extractLsb' 8 3) (w.extractLsb' 5 3) (w.extractLsb' 2 3)) ∧
  (∀ (w : Word) (s : State), w &&& 0xF803#16 = 0x0003#16 → exec (decode w) s = .fault (.invalidEncoding s.pc w)) ∧
  ∀ (s : State) (dst opa opb : RegField), s.windowInside →
    let r := s.reg (regIndex opa) &&& s.reg (regIndex opb)
    ∃ t, exec (.and dst opa opb) s = .next t ∧
      t.reg (regIndex dst) = r ∧ t.Z = decide (r = 0#16) ∧ t.S = r.msb ∧ t.C = s.C ∧ t.V = s.V ∧
      t.pc = s.pc + 1 ∧ SameControl s t ∧ CellsKeptExcept (s.operandAddr dst) s t

/-- R72: OR writes the bitwise inclusive or of the sources to dst and sets Z and S from it; C, V and everything else
but pc keep their values. -/
def Obligations.OrWritesBitwiseOr : Prop :=
  (∀ w : Word, w &&& 0xF803#16 = 0x0001#16 →
    decode w = .or (w.extractLsb' 8 3) (w.extractLsb' 5 3) (w.extractLsb' 2 3)) ∧
  ∀ (s : State) (dst opa opb : RegField), s.windowInside →
    let r := s.reg (regIndex opa) ||| s.reg (regIndex opb)
    ∃ t, exec (.or dst opa opb) s = .next t ∧
      t.reg (regIndex dst) = r ∧ t.Z = decide (r = 0#16) ∧ t.S = r.msb ∧ t.C = s.C ∧ t.V = s.V ∧
      t.pc = s.pc + 1 ∧ SameControl s t ∧ CellsKeptExcept (s.operandAddr dst) s t

/-- R73: XOR writes the bitwise exclusive or of the sources to dst and sets Z and S from it; C, V and everything else
but pc keep their values. -/
def Obligations.XorWritesBitwiseXor : Prop :=
  (∀ w : Word, w &&& 0xF803#16 = 0x0002#16 →
    decode w = .xor (w.extractLsb' 8 3) (w.extractLsb' 5 3) (w.extractLsb' 2 3)) ∧
  ∀ (s : State) (dst opa opb : RegField), s.windowInside →
    let r := s.reg (regIndex opa) ^^^ s.reg (regIndex opb)
    ∃ t, exec (.xor dst opa opb) s = .next t ∧
      t.reg (regIndex dst) = r ∧ t.Z = decide (r = 0#16) ∧ t.S = r.msb ∧ t.C = s.C ∧ t.V = s.V ∧
      t.pc = s.pc + 1 ∧ SameControl s t ∧ CellsKeptExcept (s.operandAddr dst) s t

/-- ADD (R65): dst gets the sum modulo 65536, C is the carry out, V the signed overflow, S bit 15 of the result, and Z
tests the sum BEFORE it wraps. That reading of Z is the spec's decision D24 (C4, log entry 8). -/
def Obligations.AddWritesSumAndFlags : Prop :=
  ∀ (s : State) (dst opa opb : RegField), s.windowInside →
    let a := s.reg (regIndex opa)
    let b := s.reg (regIndex opb)
    let sr := (a + b).msb
    ∃ t, exec (.add dst opa opb) s = .next t ∧
      t.reg (regIndex dst) = a + b ∧
      t.Z = decide (a.toNat + b.toNat = 0) ∧
      t.S = sr ∧
      t.C = decide (a.toNat + b.toNat > 65535) ∧
      t.V = ((a.msb && b.msb && !sr) || (!a.msb && !b.msb && sr)) ∧
      t.pc = s.pc + 1 ∧ SameControl s t ∧ CellsKeptExcept (s.operandAddr dst) s t

/-- SUB (R66): dst gets the difference modulo 65536, C is the unsigned borrow, V the signed overflow, Z whether the
operands are equal, S bit 15 of the result. The sign of a negative raw is the spec's decision D3 (log entry 7). -/
def Obligations.SubWritesDifferenceAndFlags : Prop :=
  ∀ (s : State) (dst opa opb : RegField), s.windowInside →
    let a := s.reg (regIndex opa)
    let b := s.reg (regIndex opb)
    let sr := (a - b).msb
    ∃ t, exec (.sub dst opa opb) s = .next t ∧
      t.reg (regIndex dst) = a - b ∧
      t.Z = decide (a = b) ∧
      t.S = sr ∧
      t.C = decide (a.toNat < b.toNat) ∧
      t.V = ((a.msb && !b.msb && !sr) || (!a.msb && b.msb && sr)) ∧
      t.pc = s.pc + 1 ∧ SameControl s t ∧ CellsKeptExcept (s.operandAddr dst) s t

/-- CMP (R67): the four flags of SUB, nothing else but pc; no cell of memory changes. The sign of a negative raw is
the spec's decision D3 (log entry 7). -/
def Obligations.CmpWritesOnlyFlags : Prop :=
  ∀ (s : State) (dst opa opb : RegField), s.windowInside →
    let a := s.reg (regIndex opa)
    let b := s.reg (regIndex opb)
    let sr := (a - b).msb
    ∃ t, exec (.cmp dst opa opb) s = .next t ∧
      t.Z = decide (a = b) ∧
      t.S = sr ∧
      t.C = decide (a.toNat < b.toNat) ∧
      t.V = ((a.msb && !b.msb && !sr) || (!a.msb && b.msb && sr)) ∧
      t.pc = s.pc + 1 ∧ SameControl s t ∧ CellsKept s t

/-- LDL (R77): the low byte of srcdst becomes the immediate, the high byte is kept, no flag is touched. -/
def Obligations.LdlReplacesLowByte : Prop :=
  ∀ (s : State) (srcdst : RegField) (imm : Byte), s.windowInside →
    let old := s.reg (regIndex srcdst)
    ∃ t, exec (.ldl srcdst imm) s = .next t ∧
      t.reg (regIndex srcdst) = old.extractLsb' 8 8 ++ imm ∧
      SameFlags s t ∧ t.pc = s.pc + 1 ∧ SameControl s t ∧ CellsKeptExcept (s.operandAddr srcdst) s t

/-- LDH (R78): the high byte of srcdst becomes the immediate, the low byte is kept, no flag is touched. The shift of
the immediate is the spec's decision D2 (C3, log entry 6). -/
def Obligations.LdhReplacesHighByte : Prop :=
  ∀ (s : State) (srcdst : RegField) (imm : Byte), s.windowInside →
    let old := s.reg (regIndex srcdst)
    ∃ t, exec (.ldh srcdst imm) s = .next t ∧
      t.reg (regIndex srcdst) = imm ++ old.extractLsb' 0 8 ∧
      SameFlags s t ∧ t.pc = s.pc + 1 ∧ SameControl s t ∧ CellsKeptExcept (s.operandAddr srcdst) s t

/-- R51: CMP's dst field is ignored: all eight values are valid in a CMP word and all eight words behave identically,
and no register or other cell is written. -/
def Obligations.CmpIgnoresDstField : Prop :=
  (∀ w : Word, w &&& 0xF803#16 = 0x0802#16 →
    decode w = .cmp (w.extractLsb' 8 3) (w.extractLsb' 5 3) (w.extractLsb' 2 3)) ∧
  (∀ (d d' a b : RegField) (s : State), exec (.cmp d a b) s = exec (.cmp d' a b) s) ∧
  (∀ (d a b : RegField), decode (encode (.cmp d a b)) = .cmp d a b) ∧
  ∀ (d a b : RegField) (s t : State), exec (.cmp d a b) s = .next t → t.mem = s.mem

/-- LDL and LDH, in either order, put any constant into any register and touch no flag (R59, R79). It rests on the
spec's decisions D1 and D2 (log entries 5 and 6). -/
def Obligations.ByteLoadsPutAnyConstant : Prop :=
  ∀ (s : State) (rd : RegField) (k : Word), s.windowInside →
    let lo : Instr := .ldl rd (k.extractLsb' 0 8)
    let hi : Instr := .ldh rd (k.extractLsb' 8 8)
    pseudoLI rd k = [lo, hi] ∧
    (∃ t u, exec lo s = .next t ∧ exec hi t = .next u ∧ u.reg (regIndex rd) = k ∧ SameFlags s u) ∧
    (∃ t u, exec hi s = .next t ∧ exec lo t = .next u ∧ u.reg (regIndex rd) = k ∧ SameFlags s u)

/-! Flags. -/

/-- The closed forms of the flags (R69, which the spec derives): V is signed overflow of the exact sum or difference,
and S xor V after SUB or CMP is the signed comparison. It rests on the decisions D3 and D24 (log entries 7 and 8). -/
def Obligations.FlagsHaveClosedForms : Prop :=
  ∀ (s : State) (d opa opb : RegField), s.windowInside →
    let a := s.reg (regIndex opa)
    let b := s.reg (regIndex opb)
    (∃ t, exec (.add d opa opb) s = .next t ∧
      (t.C = true ↔ 65536 ≤ a.toNat + b.toNat) ∧
      (t.V = true ↔ a.toInt + b.toInt < -32768 ∨ 32767 < a.toInt + b.toInt) ∧
      (t.Z = true ↔ a = 0#16 ∧ b = 0#16) ∧ t.S = (t.reg (regIndex d)).msb) ∧
    (∀ i : Instr, i = .sub d opa opb ∨ i = .cmp d opa opb →
      ∃ t, exec i s = .next t ∧
        (t.C = true ↔ a.toNat < b.toNat) ∧
        (t.V = true ↔ a.toInt - b.toInt < -32768 ∨ 32767 < a.toInt - b.toInt) ∧
        (t.Z = true ↔ a = b) ∧ t.S = (a - b).msb ∧
        (Bool.xor t.S t.V = true ↔ a.toInt < b.toInt))

/-- R18: who writes the flags. An arithmetic instruction writes all four (none of the old values survives), a logic
instruction writes Z and S and leaves C and V, an I-class instruction and a faulting step leave all four, and reset
clears them. -/
def Obligations.FlagWritersFollowTheTable : Prop :=
  (∀ (i : Instr) (s t : State) (z n c v : Bool), exec i s = .next t → isArithmetic i = true →
    ∃ t', exec i (s.withFlags z n c v) = .next t' ∧ SameFlags t t') ∧
  (∀ (i : Instr) (s t : State) (z n c v : Bool), exec i s = .next t →
    isInstruction i = true → isArithmetic i = false → isIClass i = false →
    t.C = s.C ∧ t.V = s.V ∧ ∃ t', exec i (s.withFlags z n c v) = .next t' ∧ t'.Z = t.Z ∧ t'.S = t.S) ∧
  (∀ (i : Instr) (s t : State), exec i s = .next t → isIClass i = true → SameFlags s t) ∧
  (∀ (s : State) (f : Fault), step s = .fault f → SameFlags s (hostStep s).1) ∧
  (∀ c : Config, (State.construct c).Z = false ∧ (State.construct c).S = false ∧ (State.construct c).C = false ∧
    (State.construct c).V = false)

/-- No instruction reads a flag: with other flags before it, it completes or faults alike, and memory, pc, W, active
and the hook come out alike (R19, R113 b). -/
def Obligations.InstructionsReadNoFlag : Prop :=
  ∀ (i : Instr) (s : State) (z n c v : Bool),
    (∀ f, exec i s = .fault f → exec i (s.withFlags z n c v) = .fault f) ∧
    (∀ t, exec i s = .next t → ∃ t', exec i (s.withFlags z n c v) = .next t' ∧
      t'.mem = t.mem ∧ t'.pc = t.pc ∧ t'.W = t.W ∧ t'.active = t.active ∧ t'.ioHook = t.ioHook)

/-- However many steps run, if none of them executes ADD, SUB or CMP then C and V stay what they were (R74 b, R111 a,
which the spec derives from R70). -/
def Obligations.CarryOverflowStaleWithoutArithmetic : Prop :=
  ∀ (n : Nat) (s t : State), runSteps n s = .next t →
    (∀ (k : Nat) (u : State), k < n → runSteps k s = .next u → isArithmetic (decode (u.mem.cell u.pc)) = false) →
    t.C = s.C ∧ t.V = s.V

/-! Frames, and what a program can reach. -/

/-- The frame of every instruction, in every state: one that completes changes no cell but its destination register's
(none for CMP), no control state, and advances pc by one (R16, R17, R18, R114). -/
def Obligations.EveryInstructionKeepsItsFrame : Prop :=
  ∀ (i : Instr) (s t : State), exec i s = .next t →
    t.pc = s.pc + 1 ∧ SameControl s t ∧
    (∀ d, destOf i = some d → CellsKeptExcept (s.operandAddr d) s t) ∧
    (destOf i = none → t.mem = s.mem)

/-- However many steps run, a program changes no cell outside W to W + 7 and none of W, active, io_hook and the size
of memory (R114 a, R17, R22, R24). -/
def Obligations.ProgramWritesOnlyLowWindow : Prop :=
  ∀ (n : Nat) (s t : State), runSteps n s = .next t →
    SameControl s t ∧ ∀ a, a < s.W ∨ s.W + 8 ≤ a → t.mem.read a = s.mem.read a

/-- A step reads only the cell at pc and the cells W to W + 7: in two states that agree on these (and on all but
memory), it faults alike, or completes with the same flags, pc and cells W to W + 7, every other cell staying as each
memory has it (R33, R114 a). -/
def Obligations.StepReadsOnlyFetchedCellAndLowWindow : Prop :=
  ∀ (s : State) (m : Memory), m.size = s.mem.size → m.cell s.pc = s.mem.cell s.pc →
    (∀ k, k < 8 → m.cell (s.W + k) = s.mem.cell (s.W + k)) →
    (∀ f, step s = .fault f → step (s.setMem m) = .fault f) ∧
    (∀ t, step s = .next t → ∃ t', step (s.setMem m) = .next t' ∧ SameFlags t t' ∧ t'.pc = t.pc ∧ SameControl t t' ∧
      (∀ k, k < 8 → t'.mem.cell (s.W + k) = t.mem.cell (s.W + k)) ∧
      ∀ a, a < s.W ∨ s.W + 8 ≤ a → t'.mem.cell a = m.cell a)

/-- R23: what instructions write is never gated: a step does the same whatever active (and the I/O hook) holds, and
leaves both as they are. -/
def Obligations.StepIsNeverGated : Prop :=
  ∀ (s : State) (g : Bool) (h : Option IoHook),
    let s' : State := { s with active := g, ioHook := h }
    (∀ t, step s = .next t → step s' = .next { t with active := g, ioHook := h }) ∧
    (∀ f, step s = .fault f → step s' = .fault f)

/-- Every step that completes began at a cell that exists and leaves pc one higher, at most MEMSIZE; it never wraps
(R16; the no-wrap is the spec's decision D6, log entry 9). -/
def Obligations.PcAdvancesByOneAndNeverWraps : Prop :=
  ∀ s t : State, step s = .next t → s.pc < s.mem.size ∧ t.pc = s.pc + 1 ∧ t.pc ≤ t.mem.size

/-- Execution is a straight line: k completed steps advance pc by k, and a run of more steps than there are cells from
pc on ends in a fault (R113 c; the fault at the end of memory is the spec's decision D4, log entry 11). -/
def Obligations.RunsAreStraightAndEndInFault : Prop :=
  (∀ (k : Nat) (s t : State), runSteps k s = .next t → t.pc = s.pc + k ∧ (0 < k → s.pc + k ≤ s.mem.size)) ∧
  ∀ (k : Nat) (s : State), s.mem.size - s.pc < k → ∃ f, runSteps k s = .fault f

/-- A register write by any instruction is what the next step executes when the register is the cell at pc + 1, with
no fence; an instruction whose destination is the very cell it was fetched from still executes as fetched, from the
registers as they stood, and the value it writes is what a later fetch of that cell executes (R43, R48, R80; the order
is the spec's decision D23, log entry 15; the I-class words and LDH's value rest on D1 and D2, log entries 5 and 6). -/
def Obligations.NextFetchSeesRegisterWrite : Prop :=
  ∀ (s : State) (w : Word) (d : RegField), s.windowInside → s.mem.read s.pc = some w → destOf (decode w) = some d →
    ∃ v t, valueWritten (decode w) s = some v ∧ exec (decode w) s = .next t ∧ step s = .next t ∧
      t.pc = s.pc + 1 ∧ t.reg (regIndex d) = v ∧ t.mem.read (s.operandAddr d) = some v ∧
      (s.operandAddr d = s.pc + 1 → step t = exec (decode v) t) ∧
      (s.operandAddr d = s.pc →
        t.mem.read s.pc = some v ∧ step { t with pc := s.pc } = exec (decode v) { t with pc := s.pc })

/-! Faults. -/

/-- R83: a word whose class is 0x02 to 0x07 or 0x10 to 0x1F faults with UnimplementedInstruction, reporting pc and the
word and leaving all state unchanged; nothing else raises this fault. -/
def Obligations.UndecodedClassFaults : Prop :=
  (∀ (s : State) (w : Word), s.mem.read s.pc = some w →
    (2 ≤ (w.extractLsb' 11 5).toNat ∧ (w.extractLsb' 11 5).toNat ≤ 7 ∨ 0x10 ≤ (w.extractLsb' 11 5).toNat) →
    hostStep s = (s, .fault (.unimplementedInstruction s.pc w))) ∧
  ∀ (s : State) (p : Nat) (w : Word), step s = .fault (.unimplementedInstruction p w) →
    p = s.pc ∧ s.mem.read s.pc = some w ∧
    (2 ≤ (w.extractLsb' 11 5).toNat ∧ (w.extractLsb' 11 5).toNat ≤ 7 ∨ 0x10 ≤ (w.extractLsb' 11 5).toNat)

/-- The three rows of undecoded classes stop on every path with UnimplementedInstruction (R83). -/
def Obligations.UnimplementedRowsStop : Prop :=
  ∀ (w : Word) (s : State),
    exec (.unimplementedCls02to03 w) s = .fault (.unimplementedInstruction s.pc w) ∧
    exec (.unimplementedCls04to07 w) s = .fault (.unimplementedInstruction s.pc w) ∧
    exec (.unimplementedCls10to1F w) s = .fault (.unimplementedInstruction s.pc w)

/-- An A-class word with typ = 3 and an I-class word of class 0x0A to 0x0F fault with InvalidEncoding, reporting pc
and the word and leaving all state unchanged; nothing else raises this fault (R76, R84). The I-class selector is the
spec's decision D1 (log entry 5). -/
def Obligations.InvalidSubEncodingFaults : Prop :=
  (∀ (s : State) (w : Word), s.mem.read s.pc = some w →
    ((w.extractLsb' 11 5).toNat ≤ 1 ∧ w.extractLsb' 0 2 = 3#2 ∨
      0x0A ≤ (w.extractLsb' 11 5).toNat ∧ (w.extractLsb' 11 5).toNat ≤ 0x0F) →
    hostStep s = (s, .fault (.invalidEncoding s.pc w))) ∧
  ∀ (s : State) (p : Nat) (w : Word), step s = .fault (.invalidEncoding p w) →
    p = s.pc ∧ s.mem.read s.pc = some w ∧
    ((w.extractLsb' 11 5).toNat ≤ 1 ∧ w.extractLsb' 0 2 = 3#2 ∨
      0x0A ≤ (w.extractLsb' 11 5).toNat ∧ (w.extractLsb' 11 5).toNat ≤ 0x0F)

/-- The three invalid rows stop on every path with InvalidEncoding (R76, R84). -/
def Obligations.InvalidRowsStop : Prop :=
  ∀ (w : Word) (s : State),
    exec (.invalidAClassTyp3 w) s = .fault (.invalidEncoding s.pc w) ∧
    exec (.invalidIClassOpc2to3 w) s = .fault (.invalidEncoding s.pc w) ∧
    exec (.invalidIClassOpc4to7 w) s = .fault (.invalidEncoding s.pc w)

/-- A step faults with OutOfBounds exactly when pc is at or above MEMSIZE, reporting pc and leaving all state
unchanged (R85; the fault is the spec's decision D4, log entry 11). -/
def Obligations.FetchOutsideMemoryFaults : Prop :=
  (∀ s : State, s.mem.size ≤ s.pc → hostStep s = (s, .fault (.outOfBounds s.pc))) ∧
  ∀ (s : State) (p : Nat), step s = .fault (.outOfBounds p) → s.mem.size ≤ s.pc ∧ p = s.pc

/-- A step is a new state, or a fault with the state unchanged that is reported to the host with the kind, pc and the
fetched word, none when nothing could be fetched (R81, R82; OutOfBounds is the spec's decision D4, log entry 11). -/
def Obligations.StepAnswersStateOrReportedFault : Prop :=
  ∀ s : State, s.windowInside →
    (∃ t, step s = .next t ∧ hostStep s = (t, .silent)) ∨
    (∃ f, step s = .fault f ∧ hostStep s = (s, .fault f) ∧
      ((s.mem.read s.pc = none ∧ f = .outOfBounds s.pc) ∨
        ∃ w, s.mem.read s.pc = some w ∧
          (f = .unimplementedInstruction s.pc w ∨ f = .invalidEncoding s.pc w)))

/-- Under the window invariant a step completes exactly when there is a cell at pc and its word is one of the eight
instructions: none of them, once decoded, fails (R46, R60, R115). -/
def Obligations.StepCompletesExactlyOnInstructions : Prop :=
  ∀ s : State, s.windowInside →
    ((∃ t, step s = .next t) ↔ s.pc < s.mem.size ∧ isInstruction (decode (s.mem.cell s.pc)) = true)

/-- A core that faulted cannot get past the faulting word by itself: however often the host steps again, the state
stays and the same fault is reported (R88, R89, which the spec derives). -/
def Obligations.RepeatedStepRepeatsFault : Prop :=
  ∀ (s : State) (f : Fault) (n : Nat), step s = .fault f →
    hostRun (List.replicate n .step) s = s ∧ hostAct .step (hostRun (List.replicate n .step) s) = (s, .fault f)

/-- No instruction is refused, in any state: every row of the opcode table has a meaning (R2, R60). -/
def Obligations.NoInstructionIsRefused : Prop :=
  ∀ (i : Instr) (s : State) (r : Refusal), exec i s ≠ .refused r

/-! Invariants. -/

/-- Every step keeps the invariant: the window stays inside memory (R17) and memory keeps its canonical form (R11; the
form is the model's own, log entry 19). -/
def Obligations.StepKeepsStateInvariant : Prop :=
  ∀ s t : State, s.Inv → step s = .next t → t.Inv

/-- A legally constructed state meets the invariant, the model's reset state among them (R17, R26). -/
def Obligations.ConstructedStateMeetsInvariant : Prop :=
  (∀ c : Config, c.legal = true → (State.construct c).Inv) ∧ State.reset.Inv

/-- Every action of the host keeps the invariant, whatever its arguments (R17, R103 to R109; the refusals that keep it
are the spec's decisions D5, D16 and D20, log entries 12, 13 and 14). -/
def Obligations.HostActionsKeepStateInvariant : Prop :=
  ∀ (op : HostOp) (s : State), s.Inv → (hostAct op s).1.Inv

/-- Every state the host can bring the core to meets the invariant, and from it a step completes or raises one of the
spec's three faults; the model's own registerOutsideMemory (log entry 4) is never raised (R17, R35, R81). Choices it
rests on: the canonical form of memory in Inv is the model's own (log entry 19), as is the refusal of a construction
below 16 cells (log entry 3); OutOfBounds, the bounded window move and the refused loads are the spec's decisions D4,
D5 and D16 (log entries 11, 12 and 13). -/
def Obligations.ReachableStatesAreSafe : Prop :=
  ∀ s : State, Reachable s → s.Inv ∧ ((∃ t, step s = .next t) ∨ ∃ f, step s = .fault f ∧ f.code ≠ none)

/-- Memories in canonical form that hold the same cells are the same data (R11; the form is the model's own, log entry
19). -/
def Obligations.CanonicalMemoriesWithEqualCellsAreEqual : Prop :=
  ∀ m m' : Memory, m.wf → m'.wf → m.size = m'.size → (∀ a, a < m.size → m.cell a = m'.cell a) → m = m'

/-! Reset. -/

/-- What reset leaves: every cell and register 0, pc = START_PC, W = 0, flags 0, the hook the argument (R26, R98);
active = 0 is the spec's decision D9 (log entry 10). The host's reset operation gives that state, from any state. -/
def Obligations.ResetValues : Prop :=
  ∀ (c : Config) (s : State), c.legal = true →
    let t := (hostAct (.reset c) s).1
    t = State.construct c ∧
    t.mem.size = c.memSize ∧ (∀ a, a < c.memSize → t.mem.read a = some 0#16) ∧ (∀ r : RegIndex, t.reg r = 0#16) ∧
    t.pc = c.startPc ∧ t.W = 0 ∧ t.Z = false ∧ t.S = false ∧ t.C = false ∧ t.V = false ∧
    t.active = false ∧ t.ioHook = c.ioHook

/-- An unloaded core executes AND r0, r0, r0 from START_PC on: after n steps inside memory only pc has moved and Z is
1; at MEMSIZE it faults for good (R102, which the spec derives; D4, log entry 11). -/
def Obligations.UnloadedCoreRunsZeroWords : Prop :=
  ∀ (c : Config) (n : Nat), c.legal = true → c.startPc + n ≤ c.memSize →
    let t : State := { State.construct c with pc := c.startPc + n, Z := decide (0 < n) }
    runSteps n (State.construct c) = .next t ∧
    (c.startPc + n = c.memSize → ∀ k, runSteps (k + 1) t = .fault (.outOfBounds c.memSize))

/-! The host interface. -/

/-- R36: register r is the cell W + r, read and written, for the host and for an instruction's field, which reaches W
to W + 7; the translation uses the W of the start of the step, and no step changes W. -/
def Obligations.RegisterIsWindowCell : Prop :=
  (∀ (W : Nat) (r : RegIndex), regAddr W r = W + r.toNat) ∧
  (∀ (s : State) (r : RegIndex), s.reg r = s.mem.cell (s.W + r.toNat)) ∧
  (∀ (s : State) (f : RegField), s.operandAddr f = s.W + f.toNat ∧ s.operandAddr f ≤ s.W + 7) ∧
  (∀ (s : State) (r : Nat), s.windowInside → r ≤ 15 → hostRead (.register r) s = .word (s.mem.cell (s.W + r))) ∧
  (∀ (s : State) (f : RegField) (k : Word → StepResult), s.windowInside →
    withReg f s k = k (s.mem.cell (s.W + f.toNat))) ∧
  (∀ (s : State) (f : RegField) (v : Word) (k : State → StepResult), s.windowInside →
    ∃ m, s.mem.write (s.W + f.toNat) v = some m ∧ withRegWritten f v s k = k (s.setMem m)) ∧
  (∀ s t : State, step s = .next t → t.W = s.W)

/-- Moving the window changes W alone, no cell is copied, and read_register(r) then answers mem[w + r] (R38, R36). It
needs active = 0 and a window inside memory; else nothing happens (R107; the operation is the spec's decision D5, log
entry 12). -/
def Obligations.WindowMoveChangesOnlyW : Prop :=
  ∀ (s : State) (w : Nat),
    hostAct (.setWindowExternal w) s =
      (if s.active = false ∧ w + 16 ≤ s.mem.size then { s with W := w } else s, .silent) ∧
    (s.active = false → w + 16 ≤ s.mem.size → ∀ r : Nat, r ≤ 15 →
      hostRead (.register r) (hostAct (.setWindowExternal w) s).1 = .word (s.mem.cell (w + r)))

/-- While the run scope is held the five mutators are no-ops that report nothing, whatever their arguments (R22,
R103; set_window_external's part is the spec's decision D5, log entry 12). -/
def Obligations.RunScopeBlocksMutators : Prop :=
  ∀ s : State, s.active = true →
    (∀ r v : Int, hostAct (.writeRegisterExternal r v) s = (s, .silent)) ∧
    (∀ p : Nat, hostAct (.setPcExternal p) s = (s, .silent)) ∧
    (∀ (ws : List Word) (a : Nat), hostAct (.loadProgram ws a) s = (s, .silent)) ∧
    (∀ w : Nat, hostAct (.setWindowExternal w) s = (s, .silent)) ∧
    (∀ h : Option IoHook, hostAct (.rebindIoHook h) s = (s, .silent))

/-- write_register_external with active = 0 writes the cell W + r and nothing else; a bad r or v is refused (R104; the
refusal is the spec's decision D20, log entry 14). -/
def Obligations.HostRegisterWriteSetsOneCell : Prop :=
  (∀ (s : State) (r : RegIndex) (v : Word), s.windowInside → s.active = false →
    let t := (hostAct (.writeRegisterExternal r.toNat v.toNat) s).1
    t.reg r = v ∧ CellsKeptExcept (s.W + r.toNat) s t ∧ SameControl s t ∧ SameFlags s t ∧ t.pc = s.pc) ∧
  ∀ (s : State) (r v : Int), r < 0 ∨ 15 < r ∨ v < 0 ∨ 65535 < v →
    hostAct (.writeRegisterExternal r v) s = (s, .silent)

/-- set_pc_external with active = 0 sets pc to any natural number and nothing else; outside memory the next step
faults (R105; the fault is the spec's decision D4, log entry 11). -/
def Obligations.HostSetsPcUnchecked : Prop :=
  ∀ (s : State) (p : Nat), s.active = false →
    hostAct (.setPcExternal p) s = ({ s with pc := p }, .silent) ∧
    (s.mem.size ≤ p → step { s with pc := p } = .fault (.outOfBounds p))

/-- load_program with active = 0 writes the words to the cells from start on and nothing else; a load that does not
fit is refused whole and reported (R106; the refusal is the spec's decision D16, log entry 13). -/
def Obligations.HostLoadWritesItsCellsOnly : Prop :=
  ∀ (s : State) (ws : List Word) (start : Nat), s.active = false →
    (start + ws.length ≤ s.mem.size →
      ∃ t, hostAct (.loadProgram ws start) s = (t, .silent) ∧
        (∀ k w, ws[k]? = some w → t.mem.read (start + k) = some w) ∧
        (∀ a, a < start ∨ start + ws.length ≤ a → t.mem.read a = s.mem.read a) ∧
        SameControl s t ∧ SameFlags s t ∧ t.pc = s.pc) ∧
    (s.mem.size < start + ws.length → hostAct (.loadProgram ws start) s = (s, .loadOutOfBounds))

/-- R108: enter_run_scope and exit_run_scope set and clear active, always and idempotently; no step, faulting or not,
changes it; rebind_io_hook is refused in the run scope and otherwise replaces the hook. -/
def Obligations.RunScopeIsSetAndClearedByHostOnly : Prop :=
  ∀ s : State,
    hostAct .enterRunScope s = ({ s with active := true }, .silent) ∧
    hostAct .exitRunScope s = ({ s with active := false }, .silent) ∧
    hostRun [.enterRunScope, .enterRunScope] s = hostRun [.enterRunScope] s ∧
    hostRun [.exitRunScope, .exitRunScope] s = hostRun [.exitRunScope] s ∧
    (hostStep s).1.active = s.active ∧
    (∀ h, hostAct (.rebindIoHook h) s = (if s.active = true then s else { s with ioHook := h }, .silent))

/-- A host read changes nothing and answers what the state holds, in and out of the run scope (R109; the leave while
active is the spec's decision D21, log entry 16). -/
def Obligations.HostReadsAnswerTheState : Prop :=
  ∀ s : State, s.windowInside →
    (∀ q : HostRead, (hostAct (.read q) s).1 = s) ∧
    (∀ r : RegIndex, hostRead (.register r.toNat) s = .word (s.reg r)) ∧
    hostRead .regs s = .words ((List.range 16).map fun k => s.mem.cell (s.W + k)) ∧
    (∀ a, a < s.mem.size → hostRead (.cell a) s = .word (s.mem.cell a)) ∧
    hostRead .pc s = .number s.pc ∧ hostRead .flags s = .flags s.Z s.S s.C s.V ∧
    hostRead .window s = .number s.W ∧ hostRead .active s = .bit s.active
end

