-- ==== Sys2Proof/Laws/Decode.lean ====
section
/-! SUPPORT. The fields of an encoded word, a word put together again from its fields, and the class dispatch by the
class number. -/

namespace Sys2Proof

section
variable (cls : BitVec 5) (d a b : RegField) (t : BitVec 2)

theorem clsOf_encodeA : clsOf (encodeA cls d a b t) = cls := by
  apply BitVec.eq_of_getLsbD_eq
  intro i hi
  simp only [clsOf, encodeA, BitVec.getLsbD_extractLsb', BitVec.getLsbD_append]
  interval_cases i <;> simp

theorem codeOf_encodeA : codeOf (encodeA cls d a b t) = cls.extractLsb' 0 1 := by
  apply BitVec.eq_of_getLsbD_eq
  intro i hi
  simp only [codeOf, encodeA, BitVec.getLsbD_extractLsb', BitVec.getLsbD_append]
  interval_cases i
  simp

theorem dstOf_encodeA : dstOf (encodeA cls d a b t) = d := by
  apply BitVec.eq_of_getLsbD_eq
  intro i hi
  simp only [dstOf, encodeA, BitVec.getLsbD_extractLsb', BitVec.getLsbD_append]
  interval_cases i <;> simp

theorem opaOf_encodeA : opaOf (encodeA cls d a b t) = a := by
  apply BitVec.eq_of_getLsbD_eq
  intro i hi
  simp only [opaOf, encodeA, BitVec.getLsbD_extractLsb', BitVec.getLsbD_append]
  interval_cases i <;> simp

theorem opbOf_encodeA : opbOf (encodeA cls d a b t) = b := by
  apply BitVec.eq_of_getLsbD_eq
  intro i hi
  simp only [opbOf, encodeA, BitVec.getLsbD_extractLsb', BitVec.getLsbD_append]
  interval_cases i <;> simp

theorem typOf_encodeA : typOf (encodeA cls d a b t) = t := by
  apply BitVec.eq_of_getLsbD_eq
  intro i hi
  simp only [typOf, encodeA, BitVec.getLsbD_extractLsb', BitVec.getLsbD_append]
  interval_cases i <;> simp

end

section
variable (opc : BitVec 3) (d : RegField) (imm : Byte)

theorem clsOf_encodeI : clsOf (encodeI opc d imm) = 1#2 ++ opc := by
  apply BitVec.eq_of_getLsbD_eq
  intro i hi
  simp only [clsOf, encodeI, BitVec.getLsbD_extractLsb', BitVec.getLsbD_append]
  interval_cases i <;> simp

theorem opcOf_encodeI : opcOf (encodeI opc d imm) = opc := by
  apply BitVec.eq_of_getLsbD_eq
  intro i hi
  simp only [opcOf, encodeI, BitVec.getLsbD_extractLsb', BitVec.getLsbD_append]
  interval_cases i <;> simp

theorem srcdstOf_encodeI : srcdstOf (encodeI opc d imm) = d := by
  apply BitVec.eq_of_getLsbD_eq
  intro i hi
  simp only [srcdstOf, encodeI, BitVec.getLsbD_extractLsb', BitVec.getLsbD_append]
  interval_cases i <;> simp

theorem immOf_encodeI : immOf (encodeI opc d imm) = imm := by
  apply BitVec.eq_of_getLsbD_eq
  intro i hi
  simp only [immOf, encodeI, BitVec.getLsbD_extractLsb', BitVec.getLsbD_append]
  interval_cases i <;> simp

end

/-- Every word is put together from its A-format fields (R49). -/
theorem encodeA_fields (w : Word) : encodeA (clsOf w) (dstOf w) (opaOf w) (opbOf w) (typOf w) = w := by
  apply BitVec.eq_of_getLsbD_eq
  intro i hi
  simp only [encodeA, clsOf, dstOf, opaOf, opbOf, typOf, BitVec.getLsbD_extractLsb', BitVec.getLsbD_append]
  interval_cases i <;> simp

/-- A word of the I-class is put together from its I-format fields (R52). -/
theorem encodeI_fields {w : Word} (h : w.extractLsb' 14 2 = 1#2) : encodeI (opcOf w) (srcdstOf w) (immOf w) = w := by
  have top : 1#2 ++ opcOf w ++ srcdstOf w ++ immOf w = w.extractLsb' 14 2 ++ opcOf w ++ srcdstOf w ++ immOf w := by
    rw [h]
  rw [encodeI, top]
  apply BitVec.eq_of_getLsbD_eq
  intro i hi
  simp only [srcdstOf, immOf, opcOf, BitVec.getLsbD_extractLsb', BitVec.getLsbD_append]
  interval_cases i <;> simp

/-- cls and code share bit 11 (R49, C9). -/
theorem codeOf_eq (w : Word) : codeOf w = (clsOf w).extractLsb' 0 1 := by
  apply BitVec.eq_of_getLsbD_eq
  intro i hi
  simp only [codeOf, clsOf, BitVec.getLsbD_extractLsb']
  interval_cases i
  simp

/-- opc is the low three bits of cls (R53). -/
theorem opcOf_eq (w : Word) : opcOf w = (clsOf w).extractLsb' 0 3 := by
  apply BitVec.eq_of_getLsbD_eq
  intro i hi
  simp only [opcOf, clsOf, BitVec.getLsbD_extractLsb']
  interval_cases i <;> simp

/-- The two top bits are those of cls. -/
theorem topBits_eq (w : Word) : w.extractLsb' 14 2 = (clsOf w).extractLsb' 3 2 := by
  apply BitVec.eq_of_getLsbD_eq
  intro i hi
  simp only [clsOf, BitVec.getLsbD_extractLsb']
  interval_cases i <;> simp

theorem decode_of_aClass {w : Word} (h : kindOf (clsOf w) = .aClass) : decode w = decodeA w := by
  rw [decode, h]

theorem decode_of_iClass {w : Word} (h : kindOf (clsOf w) = .iClass) : decode w = decodeI w := by
  rw [decode, h]

theorem decode_of_unimpl {w : Word} (h : kindOf (clsOf w) = .unimpl) : decode w = decodeUnimpl w := by
  rw [decode, h]

/-- The A-class is class 0x00 or 0x01 (R47). -/
theorem kindOf_eq_aClass {c : BitVec 5} : kindOf c = .aClass ↔ c = 0#5 ∨ c = 1#5 := by
  revert c
  decide

/-- The I-class is class 0x08 to 0x0F: its top bits are 01 (R47). -/
theorem kindOf_eq_iClass {c : BitVec 5} : kindOf c = .iClass ↔ c.extractLsb' 3 2 = 1#2 := by
  revert c
  decide

/-- Every other class is not decoded (R47, R56). -/
theorem kindOf_eq_unimpl {c : BitVec 5} :
    kindOf c = .unimpl ↔ 2 ≤ c.toNat ∧ c.toNat ≤ 7 ∨ 16 ≤ c.toNat := by
  revert c
  decide

end Sys2Proof
end

