-- ==== Sys2Proof/Laws/Flags.lean ====
section
/-! SUPPORT. The ALU and the byte merges in closed form: the unbounded integer raw of the definitions against 16-bit
arithmetic (spec/40_a_class_arith.md R64, R68; spec/42_i_class.md R77, R78). -/

namespace Sys2Proof.Machine

/-- sign(x) is bit 15 of the 16-bit value x mod 65536 (R63). -/
theorem sign_eq_msb (x : Int) : sign x = (BitVec.ofInt 16 x).msb := by
  rw [BitVec.msb_eq_getLsbD_last]
  simp [sign, BitVec.getLsbD, BitVec.toNat_ofInt]

theorem sign_asInt (a : Word) : sign (asInt a) = a.msb := by
  rw [sign_eq_msb]
  simp [asInt]

/-- For a 16-bit result, raw is zero exactly when the result is (R64). -/
theorem zeroOf_asInt (a : Word) : zeroOf (asInt a) = decide (a = 0#16) := by
  unfold zeroOf asInt
  congr 1
  rw [← BitVec.toNat_inj]
  simp

/-- Taking 65536 off or on does not change the 16-bit value. -/
theorem ofInt_add_wrap (x k : Int) : BitVec.ofInt 16 (x + 65536 * k) = BitVec.ofInt 16 x := by
  apply BitVec.eq_of_toNat_eq
  simp [BitVec.toNat_ofInt]

theorem ofInt_asInt_add (a b : Word) : BitVec.ofInt 16 (asInt a + asInt b) = a + b := by
  unfold asInt
  rw [BitVec.ofInt_add]
  simp

theorem ofInt_asInt_sub (a b : Word) : BitVec.ofInt 16 (asInt a - asInt b) = a - b := by
  apply BitVec.eq_of_toNat_eq
  have := a.isLt
  have := b.isLt
  rw [BitVec.toNat_ofInt, BitVec.toNat_sub]
  unfold asInt
  omega

/-- ADD in closed form. -/
theorem aluAdd_eq (a b : Word) :
    aluAdd a b =
      { res := a + b
        wr := true
        Z := decide (a.toNat + b.toNat = 0)
        S := (a + b).msb
        C := decide (a.toNat + b.toNat > 65535)
        V := overflowAdd a.msb b.msb (a + b).msb } := by
  have hres : BitVec.ofInt 16 (if asInt a + asInt b > 65535 then asInt a + asInt b - 65536 else asInt a + asInt b)
      = a + b := by
    split
    · rw [show asInt a + asInt b - 65536 = asInt a + asInt b + 65536 * (-1) by ring, ofInt_add_wrap, ofInt_asInt_add]
    · exact ofInt_asInt_add a b
  have hz : zeroOf (asInt a + asInt b) = decide (a.toNat + b.toNat = 0) := by
    unfold zeroOf asInt
    exact decide_eq_decide.mpr (by omega)
  have hc : decide (asInt a + asInt b > 65535) = decide (a.toNat + b.toNat > 65535) := by
    unfold asInt
    exact decide_eq_decide.mpr (by omega)
  simp only [aluAdd, sign_asInt, sign_eq_msb (asInt a + asInt b), ofInt_asInt_add, hres, hz, hc]

/-- SUB in closed form. -/
theorem aluSub_eq (a b : Word) :
    aluSub a b =
      { res := a - b
        wr := true
        Z := decide (a = b)
        S := (a - b).msb
        C := decide (a.toNat < b.toNat)
        V := overflowSub a.msb b.msb (a - b).msb } := by
  have hres : BitVec.ofInt 16 (if asInt a - asInt b < 0 then asInt a - asInt b + 65536 else asInt a - asInt b)
      = a - b := by
    split
    · rw [show asInt a - asInt b + 65536 = asInt a - asInt b + 65536 * 1 by ring, ofInt_add_wrap, ofInt_asInt_sub]
    · exact ofInt_asInt_sub a b
  have hz : zeroOf (asInt a - asInt b) = decide (a = b) := by
    unfold zeroOf asInt
    exact decide_eq_decide.mpr (by rw [← BitVec.toNat_inj]; omega)
  have hc : decide (asInt a < asInt b) = decide (a.toNat < b.toNat) := by
    unfold asInt
    exact decide_eq_decide.mpr (by omega)
  simp only [aluSub, sign_asInt, sign_eq_msb (asInt a - asInt b), ofInt_asInt_sub, hres, hz, hc]

/-- AND, OR, XOR in closed form. -/
theorem aluLogic_eq (raw : Word) (C V : Bool) :
    aluLogic raw C V =
      { res := raw, wr := true, Z := decide (raw = 0#16), S := raw.msb, C := C, V := V } := by
  simp only [aluLogic, zeroOf_asInt, sign_asInt]

/-- Only CMP leaves dst unwritten (R50). -/
theorem alu_wr (op : AluOp) (a b : Word) (C V : Bool) : (alu op a b C V).wr = decide (op ≠ .cmp) := by
  cases op <;> rfl

/-- LDL keeps the high byte and puts the immediate in the low one. -/
theorem mergeLow_eq (old : Word) (imm : Byte) : mergeLow old imm = old.extractLsb' 8 8 ++ imm := by
  apply BitVec.eq_of_getLsbD_eq
  intro i hi
  simp only [mergeLow, BitVec.getLsbD_or, BitVec.getLsbD_and, BitVec.getLsbD_append, BitVec.getLsbD_setWidth,
    BitVec.getLsbD_extractLsb']
  interval_cases i <;> simp

/-- LDH keeps the low byte and puts the immediate in the high one. -/
theorem mergeHigh_eq (old : Word) (imm : Byte) : mergeHigh old imm = imm ++ old.extractLsb' 0 8 := by
  apply BitVec.eq_of_getLsbD_eq
  intro i hi
  simp only [mergeHigh, BitVec.getLsbD_or, BitVec.getLsbD_and, BitVec.getLsbD_append, BitVec.getLsbD_setWidth,
    BitVec.getLsbD_shiftLeft, BitVec.getLsbD_extractLsb']
  interval_cases i <;> simp

end Sys2Proof.Machine
end

