-- ==== Sys2Proof/Laws/Memory.lean ====
section
/-! SUPPORT. What the memory operations do: reading after writing, and the canonical form they keep. -/

namespace Sys2Proof.Machine

theorem mem_eraseCell {a : Nat} {c : MemCell} {l : List MemCell} : c ∈ eraseCell a l ↔ c ∈ l ∧ c.1 ≠ a := by
  induction l with
  | nil => simp [eraseCell]
  | cons d rest ih =>
    obtain ⟨b, u⟩ := d
    by_cases hb : b = a
    · simp only [eraseCell, if_pos hb, ih, List.mem_cons]
      constructor
      · rintro ⟨h, hne⟩
        exact ⟨.inr h, hne⟩
      · rintro ⟨rfl | h, hne⟩
        · exact absurd hb hne
        · exact ⟨h, hne⟩
    · simp only [eraseCell, if_neg hb, List.mem_cons, ih]
      constructor
      · rintro (rfl | ⟨h, hne⟩)
        · exact ⟨.inl rfl, hb⟩
        · exact ⟨.inr h, hne⟩
      · rintro ⟨rfl | h, hne⟩
        · exact .inl rfl
        · exact .inr ⟨h, hne⟩

theorem mem_insertCell {a : Nat} {v : Word} {c : MemCell} {l : List MemCell} :
    c ∈ insertCell a v l ↔ c = (a, v) ∨ c ∈ l := by
  induction l with
  | nil => simp [insertCell]
  | cons d rest ih =>
    obtain ⟨b, u⟩ := d
    by_cases hb : a < b
    · simp [insertCell, hb]
    · simp only [insertCell, if_neg hb, List.mem_cons, ih]
      tauto

theorem lookupCell_of_not_listed {a : Nat} {l : List MemCell} (h : ∀ c ∈ l, c.1 ≠ a) : lookupCell l a = 0#16 := by
  induction l with
  | nil => rfl
  | cons d rest ih =>
    have hd := h d (by simp)
    rw [lookupCell, if_neg hd]
    exact ih fun c hc => h c (by simp [hc])

theorem lookupCell_eraseCell_self (a : Nat) (l : List MemCell) : lookupCell (eraseCell a l) a = 0#16 :=
  lookupCell_of_not_listed fun _ hc => (mem_eraseCell.mp hc).2

theorem lookupCell_eraseCell_ne {a b : Nat} (h : b ≠ a) (l : List MemCell) :
    lookupCell (eraseCell a l) b = lookupCell l b := by
  induction l with
  | nil => rfl
  | cons d rest ih =>
    obtain ⟨k, u⟩ := d
    by_cases hk : k = a
    · have : k ≠ b := fun e => h (e.symm.trans hk)
      simp [eraseCell, lookupCell, hk, ih, hk ▸ this]
    · simp [eraseCell, lookupCell, hk, ih]

theorem lookupCell_insertCell_self {a : Nat} (v : Word) {l : List MemCell} (h : ∀ c ∈ l, c.1 ≠ a) :
    lookupCell (insertCell a v l) a = v := by
  induction l with
  | nil => simp [insertCell, lookupCell]
  | cons d rest ih =>
    have hd := h d (by simp)
    by_cases hb : a < d.1
    · simp [insertCell, lookupCell, hb]
    · simp only [insertCell, if_neg hb, lookupCell, if_neg hd]
      exact ih fun c hc => h c (by simp [hc])

theorem lookupCell_insertCell_ne {a b : Nat} (h : b ≠ a) (v : Word) (l : List MemCell) :
    lookupCell (insertCell a v l) b = lookupCell l b := by
  induction l with
  | nil => simp [insertCell, lookupCell, h.symm]
  | cons d rest ih =>
    by_cases hb : a < d.1
    · simp [insertCell, lookupCell, hb, h.symm]
    · simp [insertCell, lookupCell, hb, ih]

@[simp] theorem Memory.put_size (m : Memory) (a : Nat) (v : Word) : (m.put a v).size = m.size := by
  unfold Memory.put
  split <;> rfl

/-- The cell written holds the value written (R33). -/
theorem Memory.cell_put_self (m : Memory) (a : Nat) (v : Word) : (m.put a v).cell a = v := by
  unfold Memory.put Memory.cell
  split
  · next h => rw [h, lookupCell_eraseCell_self]
  · exact lookupCell_insertCell_self v fun _ hc => (mem_eraseCell.mp hc).2

/-- Every other cell keeps its content. -/
theorem Memory.cell_put_ne (m : Memory) {a b : Nat} (h : b ≠ a) (v : Word) : (m.put a v).cell b = m.cell b := by
  unfold Memory.put Memory.cell
  split
  · exact lookupCell_eraseCell_ne h _
  · rw [lookupCell_insertCell_ne h, lookupCell_eraseCell_ne h]

theorem Memory.read_inside {m : Memory} {a : Nat} (h : a < m.size) : m.read a = some (m.cell a) := if_pos h

theorem Memory.write_inside {m : Memory} {a : Nat} (h : a < m.size) (v : Word) : m.write a v = some (m.put a v) :=
  if_pos h

theorem Memory.read_put_self {m : Memory} {a : Nat} (h : a < m.size) (v : Word) : (m.put a v).read a = some v := by
  simp [Memory.read, h, Memory.cell_put_self]

theorem Memory.read_put_ne (m : Memory) {a b : Nat} (h : b ≠ a) (v : Word) : (m.put a v).read b = m.read b := by
  simp [Memory.read, Memory.cell_put_ne m h]

/-- Everything a memory write can answer. -/
theorem Memory.write_eq_some {m m' : Memory} {a : Nat} {v : Word} :
    m.write a v = some m' ↔ a < m.size ∧ m' = m.put a v := by
  unfold Memory.write
  split <;> simp_all [eq_comm]

/-! The canonical form. -/

theorem pairwise_eraseCell {a : Nat} {l : List MemCell} (h : l.Pairwise (fun x y => x.1 < y.1)) :
    (eraseCell a l).Pairwise (fun x y => x.1 < y.1) := by
  induction l with
  | nil => exact h
  | cons d rest ih =>
    rw [List.pairwise_cons] at h
    by_cases hk : d.1 = a
    · simpa [eraseCell, hk] using ih h.2
    · simp only [eraseCell, if_neg hk, List.pairwise_cons]
      exact ⟨fun c hc => h.1 c (mem_eraseCell.mp hc).1, ih h.2⟩

theorem pairwise_insertCell {a : Nat} {v : Word} {l : List MemCell} (h : l.Pairwise (fun x y => x.1 < y.1))
    (hne : ∀ c ∈ l, c.1 ≠ a) : (insertCell a v l).Pairwise (fun x y => x.1 < y.1) := by
  induction l with
  | nil => simp [insertCell]
  | cons d rest ih =>
    have hl := List.pairwise_cons.mp h
    by_cases hb : a < d.1
    · simp only [insertCell, if_pos hb]
      refine List.pairwise_cons.mpr ⟨fun c hc => ?_, h⟩
      rcases List.mem_cons.mp hc with rfl | hc
      · exact hb
      · exact hb.trans (hl.1 c hc)
    · have hd : d.1 < a := lt_of_le_of_ne (not_lt.mp hb) (hne d (by simp))
      simp only [insertCell, if_neg hb, List.pairwise_cons]
      refine ⟨fun c hc => ?_, ih hl.2 fun c hc => hne c (by simp [hc])⟩
      rcases mem_insertCell.mp hc with rfl | hc
      · exact hd
      · exact hl.1 c hc

/-- A write inside the memory keeps the canonical form. -/
theorem Memory.put_wf {m : Memory} {a : Nat} (hw : m.wf) (ha : a < m.size) (v : Word) : (m.put a v).wf := by
  have hcells : ∀ c ∈ eraseCell a m.cells, c.2 ≠ 0#16 ∧ c.1 < m.size := fun c hc => hw.2 c (mem_eraseCell.mp hc).1
  unfold Memory.put
  split
  · exact ⟨pairwise_eraseCell hw.1, hcells⟩
  · next hv =>
    refine ⟨pairwise_insertCell (pairwise_eraseCell hw.1) fun c hc => (mem_eraseCell.mp hc).2, fun c hc => ?_⟩
    rcases mem_insertCell.mp hc with rfl | hc
    · exact ⟨hv, ha⟩
    · exact hcells c hc

theorem Memory.write_wf {m m' : Memory} {a : Nat} {v : Word} (hw : m.wf) (h : m.write a v = some m') : m'.wf := by
  obtain ⟨ha, rfl⟩ := Memory.write_eq_some.mp h
  exact Memory.put_wf hw ha v

@[simp] theorem Memory.putAll_size (m : Memory) (start : Nat) (ws : List Word) :
    (m.putAll start ws).size = m.size := by
  induction ws generalizing m start with
  | nil => rfl
  | cons w ws ih => simp [Memory.putAll, ih]

theorem Memory.putAll_wf {m : Memory} {start : Nat} {ws : List Word} (hw : m.wf)
    (h : start + ws.length ≤ m.size) : (m.putAll start ws).wf := by
  induction ws generalizing m start with
  | nil => exact hw
  | cons w ws ih =>
    rw [List.length_cons] at h
    exact ih (Memory.put_wf hw (by omega) w) (by rw [Memory.put_size]; omega)

/-- A cell below the load keeps its content. -/
theorem Memory.cell_putAll_below (m : Memory) {start b : Nat} (h : b < start) (ws : List Word) :
    (m.putAll start ws).cell b = m.cell b := by
  induction ws generalizing m start with
  | nil => rfl
  | cons w ws ih =>
    rw [Memory.putAll, ih (m.put start w) (by omega), Memory.cell_put_ne m (by omega)]

/-- A cell above the load keeps its content. -/
theorem Memory.cell_putAll_above (m : Memory) {start b : Nat} {ws : List Word} (h : start + ws.length ≤ b) :
    (m.putAll start ws).cell b = m.cell b := by
  induction ws generalizing m start with
  | nil => rfl
  | cons w ws ih =>
    rw [List.length_cons] at h
    rw [Memory.putAll, ih (m.put start w) (by omega), Memory.cell_put_ne m (by omega)]

/-- A cell of the load holds its word. -/
theorem Memory.cell_putAll_inside (m : Memory) (start : Nat) (ws : List Word) (k : Nat) (h : k < ws.length) :
    (m.putAll start ws).cell (start + k) = ws[k] := by
  induction ws generalizing m start k with
  | nil => simp at h
  | cons w ws ih =>
    cases k with
    | zero => rw [Memory.putAll, Memory.cell_putAll_below _ (by omega)]; exact Memory.cell_put_self m start w
    | succ k =>
      have := ih (m.put start w) (start + 1) k (by simpa using h)
      simpa [Memory.putAll, Nat.add_comm, Nat.add_left_comm] using this

theorem Memory.empty_wf (n : Nat) : Memory.wf { size := n, cells := [] } := by simp [Memory.wf]

@[simp] theorem Memory.empty_cell (n a : Nat) : Memory.cell { size := n, cells := [] } a = 0#16 := rfl

end Sys2Proof.Machine
end

