-- ==== Sys2Proof/Laws/State.lean ====
section
/-! SUPPORT. One lemma per field per update of the state: no proof unfolds a record update. -/

namespace Sys2Proof.Machine

variable (s : State)

@[simp] theorem State.setMem_mem (m : Memory) : (s.setMem m).mem = m := rfl
@[simp] theorem State.setMem_pc (m : Memory) : (s.setMem m).pc = s.pc := rfl
@[simp] theorem State.setMem_W (m : Memory) : (s.setMem m).W = s.W := rfl
@[simp] theorem State.setMem_Z (m : Memory) : (s.setMem m).Z = s.Z := rfl
@[simp] theorem State.setMem_S (m : Memory) : (s.setMem m).S = s.S := rfl
@[simp] theorem State.setMem_C (m : Memory) : (s.setMem m).C = s.C := rfl
@[simp] theorem State.setMem_V (m : Memory) : (s.setMem m).V = s.V := rfl
@[simp] theorem State.setMem_active (m : Memory) : (s.setMem m).active = s.active := rfl
@[simp] theorem State.setMem_ioHook (m : Memory) : (s.setMem m).ioHook = s.ioHook := rfl

@[simp] theorem State.setZS_mem (z n : Bool) : (s.setZS z n).mem = s.mem := rfl
@[simp] theorem State.setZS_pc (z n : Bool) : (s.setZS z n).pc = s.pc := rfl
@[simp] theorem State.setZS_W (z n : Bool) : (s.setZS z n).W = s.W := rfl
@[simp] theorem State.setZS_Z (z n : Bool) : (s.setZS z n).Z = z := rfl
@[simp] theorem State.setZS_S (z n : Bool) : (s.setZS z n).S = n := rfl
@[simp] theorem State.setZS_C (z n : Bool) : (s.setZS z n).C = s.C := rfl
@[simp] theorem State.setZS_V (z n : Bool) : (s.setZS z n).V = s.V := rfl
@[simp] theorem State.setZS_active (z n : Bool) : (s.setZS z n).active = s.active := rfl
@[simp] theorem State.setZS_ioHook (z n : Bool) : (s.setZS z n).ioHook = s.ioHook := rfl

@[simp] theorem State.setCV_mem (c v : Bool) : (s.setCV c v).mem = s.mem := rfl
@[simp] theorem State.setCV_pc (c v : Bool) : (s.setCV c v).pc = s.pc := rfl
@[simp] theorem State.setCV_W (c v : Bool) : (s.setCV c v).W = s.W := rfl
@[simp] theorem State.setCV_Z (c v : Bool) : (s.setCV c v).Z = s.Z := rfl
@[simp] theorem State.setCV_S (c v : Bool) : (s.setCV c v).S = s.S := rfl
@[simp] theorem State.setCV_C (c v : Bool) : (s.setCV c v).C = c := rfl
@[simp] theorem State.setCV_V (c v : Bool) : (s.setCV c v).V = v := rfl
@[simp] theorem State.setCV_active (c v : Bool) : (s.setCV c v).active = s.active := rfl
@[simp] theorem State.setCV_ioHook (c v : Bool) : (s.setCV c v).ioHook = s.ioHook := rfl

@[simp] theorem State.advance_mem : (s.advance).mem = s.mem := rfl
@[simp] theorem State.advance_pc : (s.advance).pc = s.pc + 1 := rfl
@[simp] theorem State.advance_W : (s.advance).W = s.W := rfl
@[simp] theorem State.advance_Z : (s.advance).Z = s.Z := rfl
@[simp] theorem State.advance_S : (s.advance).S = s.S := rfl
@[simp] theorem State.advance_C : (s.advance).C = s.C := rfl
@[simp] theorem State.advance_V : (s.advance).V = s.V := rfl
@[simp] theorem State.advance_active : (s.advance).active = s.active := rfl
@[simp] theorem State.advance_ioHook : (s.advance).ioHook = s.ioHook := rfl

@[simp] theorem State.setFlags_mem (o : AluOut) : (s.setFlags o).mem = s.mem := rfl
@[simp] theorem State.setFlags_pc (o : AluOut) : (s.setFlags o).pc = s.pc := rfl
@[simp] theorem State.setFlags_W (o : AluOut) : (s.setFlags o).W = s.W := rfl
@[simp] theorem State.setFlags_Z (o : AluOut) : (s.setFlags o).Z = o.Z := rfl
@[simp] theorem State.setFlags_S (o : AluOut) : (s.setFlags o).S = o.S := rfl
@[simp] theorem State.setFlags_C (o : AluOut) : (s.setFlags o).C = o.C := rfl
@[simp] theorem State.setFlags_V (o : AluOut) : (s.setFlags o).V = o.V := rfl
@[simp] theorem State.setFlags_active (o : AluOut) : (s.setFlags o).active = s.active := rfl
@[simp] theorem State.setFlags_ioHook (o : AluOut) : (s.setFlags o).ioHook = s.ioHook := rfl

/-! The state right after reset (R26). -/

variable (c : Config)

@[simp] theorem State.construct_mem : (State.construct c).mem = { size := c.memSize, cells := [] } := rfl
@[simp] theorem State.construct_pc : (State.construct c).pc = c.startPc := rfl
@[simp] theorem State.construct_W : (State.construct c).W = 0 := rfl
@[simp] theorem State.construct_Z : (State.construct c).Z = false := rfl
@[simp] theorem State.construct_S : (State.construct c).S = false := rfl
@[simp] theorem State.construct_C : (State.construct c).C = false := rfl
@[simp] theorem State.construct_V : (State.construct c).V = false := rfl
@[simp] theorem State.construct_active : (State.construct c).active = false := rfl
@[simp] theorem State.construct_ioHook : (State.construct c).ioHook = c.ioHook := rfl

end Sys2Proof.Machine
end

