-- ==== Sys2Proof/Laws/Ops.lean ====
section
/-! SUPPORT. What each shared operation can do, said once: register access, the two handlers, the step. -/

namespace Sys2Proof.Machine

@[simp] theorem regIndex_toNat (f : RegField) : (regIndex f).toNat = f.toNat := by
  have := f.isLt
  rw [regIndex, BitVec.toNat_append]
  simp

/-- An operand's address is W plus its field (R36). -/
@[simp] theorem State.operandAddr_eq (s : State) (f : RegField) : s.operandAddr f = s.W + f.toNat := by
  simp [State.operandAddr, regAddr]

theorem State.reg_regIndex (s : State) (f : RegField) : s.reg (regIndex f) = s.mem.cell (s.W + f.toNat) := by
  simp [State.reg, regAddr]

/-- Under the window invariant an operand's cell exists. -/
theorem State.operandAddr_inside {s : State} (h : s.windowInside) (f : RegField) : s.W + f.toNat < s.mem.size := by
  have := f.isLt
  omega

theorem withReg_inside {s : State} (h : s.windowInside) (f : RegField) (k : Word → StepResult) :
    withReg f s k = k (s.reg (regIndex f)) := by
  simp [withReg, Memory.read_inside (State.operandAddr_inside h f), State.reg_regIndex]

theorem withRegWritten_inside {s : State} (h : s.windowInside) (f : RegField) (v : Word) (k : State → StepResult) :
    withRegWritten f v s k = k (s.setMem (s.mem.put (s.W + f.toNat) v)) := by
  simp [withRegWritten, Memory.write_inside (State.operandAddr_inside h f)]

/-- Everything a register read can do, in any state. -/
theorem withReg_eq (f : RegField) (s : State) (k : Word → StepResult) :
    withReg f s k =
      if s.W + f.toNat < s.mem.size then k (s.reg (regIndex f))
      else .fault (.registerOutsideMemory (s.W + f.toNat)) := by
  by_cases h : s.W + f.toNat < s.mem.size <;> simp only [withReg, Memory.read, State.operandAddr_eq, h, raise,
    State.reg_regIndex, if_true, if_false]

/-- Everything a register write can do, in any state. -/
theorem withRegWritten_eq (f : RegField) (v : Word) (s : State) (k : State → StepResult) :
    withRegWritten f v s k =
      if s.W + f.toNat < s.mem.size then k (s.setMem (s.mem.put (s.W + f.toNat) v))
      else .fault (.registerOutsideMemory (s.W + f.toNat)) := by
  by_cases h : s.W + f.toNat < s.mem.size <;> simp only [withRegWritten, Memory.write, State.operandAddr_eq, h, raise,
    if_true, if_false]

/-- The memory after the result of an A-class operation is written, if it is written. -/
def aMem (s : State) (dst : RegField) (o : AluOut) : Memory :=
  if o.wr then s.mem.put (s.W + dst.toNat) o.res else s.mem

/-- The ALU's answer on the operands of an A-class instruction. -/
def aOut (op : AluOp) (opa opb : RegField) (s : State) : AluOut :=
  alu op (s.reg (regIndex opa)) (s.reg (regIndex opb)) s.C s.V

/-- Under the window invariant the A-class handler completes, in this state. -/
theorem execA_inside {s : State} (h : s.windowInside) (op : AluOp) (dst opa opb : RegField) :
    execA op dst opa opb s =
      .next (((s.setMem (aMem s dst (aOut op opa opb s))).setFlags (aOut op opa opb s)).advance) := by
  simp only [execA, withReg_inside h, withRegWritten_inside h, aMem, aOut]
  split <;> next hw => simp [hw, State.setMem]

/-- Under the window invariant the I-class handler completes, in this state. -/
theorem execI_inside {s : State} (h : s.windowInside) (merge : Word → Byte → Word) (d : RegField) (imm : Byte) :
    execI merge d imm s =
      .next (s.setMem (s.mem.put (s.W + d.toNat) (merge (s.reg (regIndex d)) imm))).advance := by
  simp only [execI, withReg_inside h, withRegWritten_inside h]

/-- Everything the A-class handler can do, in any state. -/
theorem execA_eq (op : AluOp) (dst opa opb : RegField) (s : State) :
    execA op dst opa opb s =
      if s.W + opa.toNat < s.mem.size then
        if s.W + opb.toNat < s.mem.size then
          if (aOut op opa opb s).wr = false ∨ s.W + dst.toNat < s.mem.size then
            .next (((s.setMem (aMem s dst (aOut op opa opb s))).setFlags (aOut op opa opb s)).advance)
          else .fault (.registerOutsideMemory (s.W + dst.toNat))
        else .fault (.registerOutsideMemory (s.W + opb.toNat))
      else .fault (.registerOutsideMemory (s.W + opa.toNat)) := by
  simp only [execA, withReg_eq, withRegWritten_eq, aOut, aMem]
  split_ifs <;> simp_all [State.setMem]
  omega

/-- Everything the I-class handler can do, in any state. -/
theorem execI_eq (merge : Word → Byte → Word) (d : RegField) (imm : Byte) (s : State) :
    execI merge d imm s =
      if s.W + d.toNat < s.mem.size then
        .next (s.setMem (s.mem.put (s.W + d.toNat) (merge (s.reg (regIndex d)) imm))).advance
      else .fault (.registerOutsideMemory (s.W + d.toNat)) := by
  simp only [execI, withReg_eq, withRegWritten_eq]
  split_ifs <;> rfl

/-- Everything the A-class handler can answer as a next state, in any state. -/
theorem execA_next {op : AluOp} {dst opa opb : RegField} {s t : State} (h : execA op dst opa opb s = .next t) :
    t = ((s.setMem (aMem s dst (aOut op opa opb s))).setFlags (aOut op opa opb s)).advance ∧
      ((aOut op opa opb s).wr = true → s.W + dst.toNat < s.mem.size) := by
  rw [execA_eq] at h
  split_ifs at h with _ _ hd
  cases h
  refine ⟨rfl, fun hw => hd.resolve_left ?_⟩
  simp [hw]

/-- Everything the I-class handler can answer as a next state, in any state. -/
theorem execI_next {merge : Word → Byte → Word} {d : RegField} {imm : Byte} {s t : State}
    (h : execI merge d imm s = .next t) :
    s.W + d.toNat < s.mem.size ∧
      t = (s.setMem (s.mem.put (s.W + d.toNat) (merge (s.reg (regIndex d)) imm))).advance := by
  rw [execI_eq] at h
  split_ifs at h with hd
  cases h
  exact ⟨hd, rfl⟩

/-- Under the window invariant an instruction with a destination completes, and memory changes by its value alone. -/
theorem exec_writes {s : State} (h : s.windowInside) {i : Instr} {d : RegField} (hd : destOf i = some d) :
    ∃ v t, valueWritten i s = some v ∧ exec i s = .next t ∧ t.mem = s.mem.put (s.W + d.toNat) v ∧
      t.pc = s.pc + 1 ∧ t.W = s.W := by
  cases i <;> simp only [destOf, Option.some.injEq, reduceCtorEq] at hd <;> subst hd
  all_goals first
    | exact ⟨_, _, rfl, execA_inside h _ _ _ _, by simp [aMem, aOut, alu, aluLogic, aluAdd_eq, aluSub_eq,
        State.advance, State.setFlags, State.setZS, State.setCV, State.setMem], rfl, rfl⟩
    | exact ⟨_, _, rfl, execI_inside h _ _ _, by simp [mergeLow_eq, mergeHigh_eq, State.advance, State.setMem],
        rfl, rfl⟩

/-- Everything a step can do. -/
theorem step_cases (s : State) :
    (s.mem.size ≤ s.pc ∧ step s = .fault (.outOfBounds s.pc)) ∨
      (s.pc < s.mem.size ∧ step s = exec (decode (s.mem.cell s.pc)) s) := by
  by_cases h : s.pc < s.mem.size
  · exact .inr ⟨h, by simp [step, fetch, Memory.read, h]⟩
  · exact .inl ⟨not_lt.mp h, by simp [step, fetch, Memory.read, h, raise]⟩

end Sys2Proof.Machine
end

