-- ==== Sys2Proof/Laws/PerInstr.lean ====
section
/-! SUPPORT. A statement about every instruction as syntax, one lemma per constructor: the encoding of a well-formed
instruction lies in its own row of the opcode table (spec/30_encoding.md R55). -/

namespace Sys2Proof.Laws.EncodesInRow

/-- The encoded word meets its row's mask and match. -/
def Statement (i : Instr) : Prop := wellFormed i = true → encode i &&& (rowOf i).1 = (rowOf i).2

/-- The fixed bits of the A format: the class and typ (R49). -/
theorem encodeA_row (cls : BitVec 5) (d a b : RegField) (t : BitVec 2) :
    encodeA cls d a b t &&& 0xF803#16 = encodeA cls 0#3 0#3 0#3 t := by
  apply BitVec.eq_of_getLsbD_eq
  intro i hi
  simp only [encodeA, BitVec.getLsbD_and, BitVec.getLsbD_append]
  interval_cases i <;> simp

/-- The fixed bits of the I format: 01 and opc (R52). -/
theorem encodeI_row (opc : BitVec 3) (d : RegField) (imm : Byte) :
    encodeI opc d imm &&& 0xF800#16 = encodeI opc 0#3 0#8 := by
  apply BitVec.eq_of_getLsbD_eq
  intro i hi
  simp only [encodeI, BitVec.getLsbD_and, BitVec.getLsbD_append]
  interval_cases i <;> simp

theorem and (d a b : RegField) : Statement (.and d a b) := fun _ => encodeA_row _ d a b _
theorem or (d a b : RegField) : Statement (.or d a b) := fun _ => encodeA_row _ d a b _
theorem xor (d a b : RegField) : Statement (.xor d a b) := fun _ => encodeA_row _ d a b _
theorem add (d a b : RegField) : Statement (.add d a b) := fun _ => encodeA_row _ d a b _
theorem sub (d a b : RegField) : Statement (.sub d a b) := fun _ => encodeA_row _ d a b _
theorem cmp (d a b : RegField) : Statement (.cmp d a b) := fun _ => encodeA_row _ d a b _
theorem ldl (d : RegField) (imm : Byte) : Statement (.ldl d imm) := fun _ => encodeI_row _ d imm
theorem ldh (d : RegField) (imm : Byte) : Statement (.ldh d imm) := fun _ => encodeI_row _ d imm
theorem invalidAClassTyp3 (w : Word) : Statement (.invalidAClassTyp3 w) := fun h => of_decide_eq_true h
theorem invalidIClassOpc2to3 (w : Word) : Statement (.invalidIClassOpc2to3 w) := fun h => of_decide_eq_true h
theorem invalidIClassOpc4to7 (w : Word) : Statement (.invalidIClassOpc4to7 w) := fun h => of_decide_eq_true h
theorem unimplementedCls02to03 (w : Word) : Statement (.unimplementedCls02to03 w) := fun h => of_decide_eq_true h
theorem unimplementedCls04to07 (w : Word) : Statement (.unimplementedCls04to07 w) := fun h => of_decide_eq_true h
theorem unimplementedCls10to1F (w : Word) : Statement (.unimplementedCls10to1F w) := fun h => of_decide_eq_true h

end Sys2Proof.Laws.EncodesInRow
end

