-- ==== Sys2Proof/Tests/Slice0.lean ====
section
/-! SUPPORT. Small tests. Every expected result comes from the spec's own tables (spec/95_test_vectors.md) or from a
hand calculation on its encodings (spec/30_encoding.md R49, R52). -/

namespace Sys2Proof.Tests

open Sys2Proof.Machine

/-- Reset with MEMSIZE = 64, START_PC = 0x10, the first registers loaded, and given C and V. -/
def start (rs : List Word) (C V : Bool) : State :=
  let s := State.construct { memSize := 64, startPc := 0x10, ioHook := none }
  ((s.setMem (s.mem.putAll 0 rs)).setCV C V)

/-- One step on the instruction word. -/
def after (insn : Nat) (s : State) : Option State := nextOf (step (s.withFetchWord 16 insn))

/-- The fault of one step on the instruction word. -/
def faultAfter (insn : Nat) (s : State) : Option Fault := faultOf (step (s.withFetchWord 16 insn))

/-- What a vector of the spec lists: a register, Z S C V, and pc. -/
def view (r : RegIndex) (t : State) : Word × Bool × Bool × Bool × Bool × Nat := (t.reg r, t.Z, t.S, t.C, t.V, t.pc)

/-! WellFormed refuses an ill-formed term for each of its checks. -/

theorem test_wf_refuses_typ3 : wellFormed (.invalidAClassTyp3 0x0000#16) = false := by decide
theorem test_wf_refuses_opc2to3 : wellFormed (.invalidIClassOpc2to3 0x6000#16) = false := by decide
theorem test_wf_refuses_opc4to7 : wellFormed (.invalidIClassOpc4to7 0x5FFF#16) = false := by decide
theorem test_wf_refuses_cls02to03 : wellFormed (.unimplementedCls02to03 0x2000#16) = false := by decide
theorem test_wf_refuses_cls04to07 : wellFormed (.unimplementedCls04to07 0x1FFF#16) = false := by decide
theorem test_wf_refuses_cls10to1F : wellFormed (.unimplementedCls10to1F 0x7FFF#16) = false := by decide

/-! Decoding: each constructor from a word written out field by field. -/

theorem test_decode_and : decode 0b0000010101111000#16 = .and 5#3 3#3 6#3 := by decide
theorem test_decode_or : decode 0b0000000000101001#16 = .or 0#3 1#3 2#3 := by decide
theorem test_decode_xor : decode 0b0000011111111110#16 = .xor 7#3 7#3 7#3 := by decide
theorem test_decode_add : decode 0b0000100000101000#16 = .add 0#3 1#3 2#3 := by decide
theorem test_decode_sub : decode 0b0000101100101001#16 = .sub 3#3 1#3 2#3 := by decide
theorem test_decode_cmp : decode 0b0000111100101010#16 = .cmp 7#3 1#3 2#3 := by decide
theorem test_decode_ldl : decode 0b0100001010101011#16 = .ldl 2#3 0xAB#8 := by decide
theorem test_decode_ldh : decode 0b0100101010101011#16 = .ldh 2#3 0xAB#8 := by decide
theorem test_decode_typ3 : decode 0b0000011111111111#16 = .invalidAClassTyp3 0x07FF#16 := by decide
theorem test_decode_opc2 : decode 0b0101000000000000#16 = .invalidIClassOpc2to3 0x5000#16 := by decide
theorem test_decode_opc4 : decode 0b0110000000000000#16 = .invalidIClassOpc4to7 0x6000#16 := by decide
theorem test_decode_cls02 : decode 0b0001000000000000#16 = .unimplementedCls02to03 0x1000#16 := by decide
theorem test_decode_cls04 : decode 0b0010000000000000#16 = .unimplementedCls04to07 0x2000#16 := by decide
theorem test_decode_cls10 : decode 0b1000000000000000#16 = .unimplementedCls10to1F 0x8000#16 := by decide

/-- R61's examples, the other way. -/
theorem test_encode_examples :
    encode (.add 0#3 1#3 2#3) = 0x0828#16 ∧ encode (.cmp 0#3 1#3 2#3) = 0x082A#16 ∧
      encode (.xor 7#3 7#3 7#3) = 0x07FE#16 ∧ encode (.ldl 2#3 0xAB#8) = 0x42AB#16 ∧
      encode (.ldh 2#3 0xAB#8) = 0x4AAB#16 := by decide

/-- A word longer than a cell is no instruction. -/
theorem test_table_word_too_long : decodeTableWord 32 0x0828 = none ∧ decodeTableWord 16 0x10000 = none := by decide

/-! One step each, from the spec's vectors. -/

/-- V-ADD-2, the source's scenario S2. -/
theorem test_add_overflows : (after 0x0828 (start [0#16, 0x7FFF#16, 1#16] false false)).map (view 0#4) =
    some (0x8000#16, false, true, false, true, 0x11) := by decide

/-- V-ADD-3: the sum wraps to zero and Z stays 0. -/
theorem test_add_wraps_to_zero_without_z : (after 0x0828 (start [5#16, 0xFFFF#16, 1#16] false false)).map (view 0#4) =
    some (0x0000#16, false, false, true, false, 0x11) := by decide

/-- V-SUB-5. -/
theorem test_sub_borrows_and_overflows :
    (after 0x0B29 (start [0#16, 0x7FFF#16, 0xFFFF#16] false false)).map (view 3#4) =
      some (0x8000#16, false, true, true, true, 0x11) := by decide

/-- V-SAME-5: dst is a source too. -/
theorem test_sub_same_register : (after 0x0945 (start [0#16, 1#16, 3#16] true true)).map (view 1#4) =
    some (0x0002#16, false, false, false, false, 0x11) := by decide

/-- V-CMP-1: no cell but the flags and pc. -/
theorem test_cmp_writes_no_register :
    (after 0x082A (start [9#16, 3#16, 5#16] false true)).map (view 0#4) =
      some (0x0009#16, false, true, true, false, 0x11) := by decide

/-- V-CMP-3. -/
theorem test_cmp_signed_less : (after 0x082A (start [9#16, 0x8000#16, 0x7FFF#16] true false)).map (view 0#4) =
    some (0x0009#16, false, false, false, true, 0x11) := by decide

/-- V-AND-2: C and V stay. -/
theorem test_and_keeps_carry_overflow :
    (after 0x0028 (start [0#16, 0xFFFF#16, 0x8000#16] true true)).map (view 0#4) =
      some (0x8000#16, false, true, true, true, 0x11) := by decide

/-- S1: the zero word on a zero machine. -/
theorem test_and_zero_word : (after 0x0000 (start [] false false)).map (view 0#4) =
    some (0x0000#16, true, false, false, false, 0x11) := by decide

/-- V-OR-3. -/
theorem test_or : (after 0x0029 (start [0#16, 0x1200#16, 0x0034#16] true true)).map (view 0#4) =
    some (0x1234#16, false, false, true, true, 0x11) := by decide

/-- V-XOR-2. -/
theorem test_xor : (after 0x002A (start [0#16, 0xFFFF#16, 0x7FFF#16] false false)).map (view 0#4) =
    some (0x8000#16, false, true, false, false, 0x11) := by decide

/-- V-SAME-3. -/
theorem test_xor_same_register : (after 0x0126 (start [0#16, 0xBEEF#16] true true)).map (view 1#4) =
    some (0x0000#16, true, false, true, true, 0x11) := by decide

/-- V-LDL-2. -/
theorem test_ldl_keeps_high_byte : (after 0x42AB (start [0#16, 0#16, 0x1234#16] true false)).map (view 2#4) =
    some (0x12AB#16, false, false, true, false, 0x11) := by decide

/-- V-LDL-5: no sign extension. -/
theorem test_ldl_zero_extends : (after 0x4180 (start [] false false)).map (view 1#4) =
    some (0x0080#16, false, false, false, false, 0x11) := by decide

/-- V-LDH-1, the source's scenario S3. -/
theorem test_ldh_source_scenario : (after 0x4AAB (start [0#16, 0#16, 0x00CD#16] false true)).map (view 2#4) =
    some (0xABCD#16, false, false, false, true, 0x11) := by decide

/-- V-LDH-5: S is not written. -/
theorem test_ldh_writes_no_sign : (after 0x4980 (start [0#16, 1#16] false false)).map (view 1#4) =
    some (0x8001#16, false, false, false, false, 0x11) := by decide

/-- V-FLT-1, V-FLT-2. -/
theorem test_unimplemented_faults :
    faultAfter 0x1000 (start [] false false) = some (.unimplementedInstruction 0x10 0x1000#16) ∧
      faultAfter 0xFFFF (start [] false false) = some (.unimplementedInstruction 0x10 0xFFFF#16) := by decide

/-- V-FLT-3, V-FLT-4, V-FLT-5. -/
theorem test_invalid_faults :
    faultAfter 0x0003 (start [] false false) = some (.invalidEncoding 0x10 0x0003#16) ∧
      faultAfter 0x0B2B (start [] false false) = some (.invalidEncoding 0x10 0x0B2B#16) ∧
      faultAfter 0x52AB (start [] false false) = some (.invalidEncoding 0x10 0x52AB#16) := by decide

/-- V-FLT-6: pc = MEMSIZE, reached by set_pc_external. -/
theorem test_out_of_bounds_faults :
    faultOf (step (setPcExternal 64 (start [] false false))) = some (.outOfBounds 64) := by decide

/-- P3, step 1: LDL r5, 0x2A with the window over the program changes the next word to XOR r0, r1, r2. -/
theorem test_window_over_code :
    (after 0x452A (setWindowExternal 0x0C (start [] false false))).map (fun t => decode (t.mem.cell t.pc)) =
      some (.xor 0#3 1#3 2#3) := by decide

/-- 2.7: the highest legal window, one above it, and a move in the run scope. -/
theorem test_set_window :
    (setWindowExternal 48 (start [] false false)).W = 48 ∧ (setWindowExternal 49 (start [] false false)).W = 0 ∧
      (setWindowExternal 8 { start [] false false with active := true }).W = 0 := by decide

/-- 2.7: the windows share cells: r9 under W = 0 is r1 under W = 8. -/
theorem test_windows_share_cells :
    hostRead (.register 1)
      (setWindowExternal 8 (writeRegisterExternal 9 0x1111 (start [] false false))) = .word 0x1111#16 := by decide

/-- 2.9, rows 2 to 5: the mutators are no-ops in the run scope and the step is not. -/
theorem test_gate_blocks_host_not_step :
    let s := { (start [] false false).withFetchWord 16 0x4105 with active := true }
    writeRegisterExternal 1 0x7777 s = s ∧ setPcExternal 0x20 s = s ∧ (loadProgram [0xFFFF#16] 0x10 s).1 = s ∧
      (nextOf (step s)).map (view 1#4) = some (5#16, false, false, false, false, 0x11) := by decide

/-- 2.9, rows 9 and 10: a load that does not fit is refused whole. -/
theorem test_load_is_whole :
    hostAct (.loadProgram [1#16, 2#16, 3#16] 62) (start [] false false) =
        (start [] false false, .loadOutOfBounds) ∧
      ((loadProgram [1#16, 2#16] 62 (start [] false false)).1.mem.read 63) = some 2#16 := by decide

/-- Writing 0x0000 removes the entry: memory stays canonical. -/
theorem test_zero_is_not_listed :
    (((start [] false false).mem.put 5 7#16).put 5 0#16) = (start [] false false).mem := by decide

/-- The step runs the instruction placed at reset. -/
theorem test_reset_runs_placed_word :
    nextOf (step (State.reset.withFetchWord 16 0x0000)) = some { State.reset with pc := 0x11, Z := true } := by decide

/-! Witnesses: for each statement with hypotheses, concrete values that meet them all, at the ends of their ranges. -/

/-- A state at the ends of the ranges: the highest legal window over some registers, pc on the last cell. -/
def edge : State :=
  { mem := { size := 64, cells := [(49, 0x7FFF#16), (50, 0x0001#16), (63, 0x0828#16)] }
    pc := 63
    W := 48
    Z := true
    S := false
    C := true
    V := false
    active := false
    ioHook := some { token := 7 } }

/-- The state after the step of `edge`, ADD r0, r1, r2. -/
def edgeNext : State :=
  { edge with
    mem := { size := 64, cells := [(48, 0x8000#16), (49, 0x7FFF#16), (50, 0x0001#16), (63, 0x0828#16)] }
    pc := 64, Z := false, S := true, C := false, V := true }

theorem edge_steps : step edge = .next edgeNext := by rfl

theorem test_witness_DecodeOfEncodeIsIdentity :
    wellFormed (.xor 7#3 0#3 7#3) = true ∧ wellFormed (.invalidAClassTyp3 0x0FFF#16) = true ∧
      wellFormed (.invalidIClassOpc2to3 0x5000#16) = true ∧ wellFormed (.invalidIClassOpc4to7 0x7FFF#16) = true ∧
      wellFormed (.unimplementedCls02to03 0x1FFF#16) = true ∧ wellFormed (.unimplementedCls04to07 0x3FFF#16) = true ∧
      wellFormed (.unimplementedCls10to1F 0xFFFF#16) = true := by decide

theorem test_witness_StepRunsDecodedInstruction :
    (edge.mem.read edge.pc = some 0x0828#16 ∧ decode 0x0828#16 = .add 0#3 1#3 2#3) ∧
      edgeNext.mem.read edgeNext.pc = none := by decide

/-- Every class at an end of its clause is met by some word at pc. -/
theorem test_witness_ClassDispatchOfStep :
    [0x0000#16, 0x0800#16, 0x4000#16, 0x7800#16, 0x1000#16, 0x3800#16, 0x8000#16, 0xF800#16].map
        (fun w => ((edge.mem.put 63 w).read 63 == some w, (w.extractLsb' 11 5).toNat)) =
      [(true, 0), (true, 1), (true, 8), (true, 15), (true, 2), (true, 7), (true, 16), (true, 31)] := by decide

theorem test_witness_AndWritesBitwiseAnd :
    0x07FC#16 &&& 0xF803#16 = 0x0000#16 ∧ 0x07FF#16 &&& 0xF803#16 = 0x0003#16 ∧ edge.windowInside := by decide

theorem test_witness_OrWritesBitwiseOr : 0x07FD#16 &&& 0xF803#16 = 0x0001#16 ∧ edge.windowInside := by decide

theorem test_witness_XorWritesBitwiseXor : 0x07FE#16 &&& 0xF803#16 = 0x0002#16 ∧ edge.windowInside := by decide

theorem test_witness_AddWritesSumAndFlags : edge.windowInside ∧ edge.reg 1#4 = 0x7FFF#16 := by decide

theorem test_witness_SubWritesDifferenceAndFlags : edge.windowInside ∧ edge.reg 2#4 = 0x0001#16 := by decide

theorem test_witness_CmpWritesOnlyFlags : edge.windowInside ∧ edge.reg 1#4 ≠ edge.reg 2#4 := by decide

theorem test_witness_LdlReplacesLowByte : edge.windowInside ∧ (edge.reg 1#4).extractLsb' 8 8 = 0x7F#8 := by decide

theorem test_witness_LdhReplacesHighByte : edge.windowInside ∧ (edge.reg 1#4).extractLsb' 0 8 = 0xFF#8 := by decide

theorem test_witness_CmpIgnoresDstField :
    0x0FFE#16 &&& 0xF803#16 = 0x0802#16 ∧ (nextOf (exec (.cmp 7#3 1#3 2#3) edge)).isSome = true := by decide

theorem test_witness_ByteLoadsPutAnyConstant : edge.windowInside := by decide

theorem test_witness_FlagsHaveClosedForms :
    edge.windowInside ∧ edge.reg 1#4 = 0x7FFF#16 ∧ edge.reg 2#4 = 0x0001#16 := by decide

/-- One instruction of each group completes, and a step faults. -/
theorem test_witness_FlagWritersFollowTheTable :
    [Instr.add 0#3 1#3 2#3, .xor 0#3 1#3 2#3, .ldh 7#3 0xFF#8].map
        (fun i => ((nextOf (exec i edge)).isSome, isInstruction i, isArithmetic i, isIClass i)) =
      [(true, true, true, false), (true, true, false, false), (true, true, false, true)] ∧
      faultOf (step edgeNext) = some (.outOfBounds 64) := by decide

theorem test_witness_InstructionsReadNoFlag :
    faultOf (exec (.invalidAClassTyp3 3#16) edge) = some (.invalidEncoding 63 3#16) ∧
      (nextOf (exec (.add 0#3 1#3 2#3) edge)).isSome = true := by decide

/-- A run of one step that executes no arithmetic instruction. -/
theorem test_witness_CarryOverflowStaleWithoutArithmetic :
    ∃ t, runSteps 1 (start [] true true) = .next t ∧
      ∀ (k : Nat) (u : State), k < 1 → runSteps k (start [] true true) = .next u →
        isArithmetic (decode (u.mem.cell u.pc)) = false := by
  refine ⟨{ start [] true true with pc := 0x11, Z := true }, rfl, ?_⟩
  intro k u hk hu
  obtain rfl : k = 0 := by omega
  cases hu
  decide

theorem test_witness_EveryInstructionKeepsItsFrame :
    ((nextOf (exec (.sub 7#3 1#3 2#3) edge)).isSome = true ∧ destOf (.sub 7#3 1#3 2#3) = some 7#3) ∧
      (nextOf (exec (.cmp 7#3 1#3 2#3) edge)).isSome = true ∧ destOf (.cmp 7#3 1#3 2#3) = none := by decide

/-- A run of one step, and cells just below the window and just above its low half. -/
theorem test_witness_ProgramWritesOnlyLowWindow :
    runSteps 1 edge = .next edgeNext ∧ 47 < edge.W ∧ edge.W + 8 ≤ 56 := ⟨rfl, by decide⟩

/-- Another memory that differs just below the window and just above its low half. -/
def otherMem : Memory := (edge.mem.put 47 1#16).put 56 1#16

theorem test_witness_StepReadsOnlyFetchedCellAndLowWindow :
    (otherMem.size = edge.mem.size ∧ otherMem.cell edge.pc = edge.mem.cell edge.pc ∧
      ∀ k, k < 8 → otherMem.cell (edge.W + k) = edge.mem.cell (edge.W + k)) ∧
      otherMem ≠ edge.mem ∧ nextOf (step edge) = some edgeNext := by decide

/-- The same for a step that faults. -/
theorem test_witness_StepReadsOnly_fault :
    (otherMem.size = edgeNext.mem.size ∧ otherMem.cell edgeNext.pc = edgeNext.mem.cell edgeNext.pc) ∧
      (∀ k, k < 8 → (otherMem.put 48 0x8000#16).cell (edgeNext.W + k) = edgeNext.mem.cell (edgeNext.W + k)) ∧
      faultOf (step edgeNext) = some (.outOfBounds 64) := by decide

theorem test_witness_StepIsNeverGated :
    nextOf (step edge) = some edgeNext ∧ faultOf (step edgeNext) = some (.outOfBounds 64) := by decide

theorem test_witness_PcAdvancesByOneAndNeverWraps : step edge = .next edgeNext := edge_steps

theorem test_witness_RunsAreStraightAndEndInFault :
    runSteps 1 edge = .next edgeNext ∧ edge.mem.size - edge.pc < 2 := ⟨rfl, by decide⟩

/-- One register-writing word of each shape at pc = 0x10, its destination r0 in the next cell (W = 0x11) and in its
own cell (W = 0x10): the hypotheses of both clauses are met. -/
theorem test_witness_NextFetchSeesRegisterWrite :
    [0x0028#16, 0x0829#16, 0x40FF#16, 0x48FF#16].all (fun w =>
      let s := (start [] false false).withFetchWord 16 w.toNat
      let next : State := { s with W := 0x11 }
      let own : State := { s with W := 0x10 }
      decide (next.windowInside ∧ next.mem.read next.pc = some w ∧ destOf (decode w) = some 0#3 ∧
        next.operandAddr 0#3 = next.pc + 1 ∧
        own.windowInside ∧ own.mem.read own.pc = some w ∧ own.operandAddr 0#3 = own.pc)) = true := by
  decide

/-- R43, R48: LDH r0, 0xFF held in r0 itself executes as fetched and changes its own word 0x48FF to 0xFFFF. -/
theorem test_own_word_changes_after_execution :
    let own : State := { (start [] false false).withFetchWord 16 0x48FF with W := 0x10 }
    (nextOf (step own)).map (fun t => (t.pc, t.mem.cell 0x10)) = some (0x11, 0xFFFF#16) := by decide

/-- Words of class 2, 7, 0x10 and 0x1F at pc, and the fault they raise. -/
theorem test_witness_UndecodedClassFaults :
    [0x1000#16, 0x3FFF#16, 0x8000#16, 0xFFFF#16].map (fun w =>
        ((w.extractLsb' 11 5).toNat, (edge.setMem (edge.mem.put 63 w)).mem.read 63 == some w,
          faultOf (step (edge.setMem (edge.mem.put 63 w))) == some (.unimplementedInstruction 63 w))) =
      [(2, true, true), (7, true, true), (16, true, true), (31, true, true)] := by decide

/-- Words of class 0, 1 with typ 3 and of class 0x0A, 0x0F at pc, and the fault they raise. -/
theorem test_witness_InvalidSubEncodingFaults :
    [0x0003#16, 0x0FFF#16, 0x5000#16, 0x7FFF#16].map (fun w =>
        ((w.extractLsb' 11 5).toNat, w.extractLsb' 0 2, (edge.mem.put 63 w).read 63 == some w,
          faultOf (step (edge.setMem (edge.mem.put 63 w))) == some (.invalidEncoding 63 w))) =
      [(0, 3#2, true, true), (1, 3#2, true, true), (10, 0#2, true, true), (15, 3#2, true, true)] := by decide

theorem test_witness_FetchOutsideMemoryFaults :
    edgeNext.mem.size ≤ edgeNext.pc ∧ faultOf (step edgeNext) = some (.outOfBounds 64) := by decide

theorem test_witness_StepAnswersStateOrReportedFault : edge.windowInside ∧ edgeNext.windowInside := by decide

theorem test_witness_StepCompletesExactlyOnInstructions :
    edge.windowInside ∧ edge.pc < edge.mem.size ∧ isInstruction (decode (edge.mem.cell edge.pc)) = true := by decide

theorem test_witness_RepeatedStepRepeatsFault : step edgeNext = .fault (.outOfBounds 64) := rfl

theorem test_witness_StepKeepsStateInvariant : edge.Inv ∧ step edge = .next edgeNext := ⟨by decide, edge_steps⟩

theorem test_witness_ConstructedStateMeetsInvariant :
    Config.legal { memSize := 16, startPc := 0, ioHook := none } = true := by decide

theorem test_witness_HostActionsKeepStateInvariant : edge.Inv := by decide

theorem test_witness_ReachableStatesAreSafe : Reachable (hostAct .step (State.construct Config.default)).1 :=
  .act .step _ (.construct Config.default (by decide))

theorem test_witness_CanonicalMemoriesWithEqualCellsAreEqual :
    edge.mem.wf ∧ ((edge.mem.put 0 1#16).put 0 0#16).wf ∧ edge.mem.size = ((edge.mem.put 0 1#16).put 0 0#16).size ∧
      ∀ a, a < edge.mem.size → edge.mem.cell a = ((edge.mem.put 0 1#16).put 0 0#16).cell a := by decide

theorem test_witness_ResetValues : Config.legal { memSize := 16, startPc := 99, ioHook := none } = true := by decide

/-- Up to the last cell: START_PC + n = MEMSIZE. -/
theorem test_witness_UnloadedCoreRunsZeroWords :
    Config.legal { memSize := 20, startPc := 0x10, ioHook := none } = true ∧ 0x10 + 4 ≤ 20 ∧ 0x10 + 4 = 20 := by
  decide

theorem test_witness_RegisterIsWindowCell : edge.windowInside ∧ 15 ≤ 15 ∧ step edge = .next edgeNext :=
  ⟨by decide, by decide, edge_steps⟩

theorem test_witness_WindowMoveChangesOnlyW : edge.active = false ∧ 48 + 16 ≤ edge.mem.size ∧ 15 ≤ 15 := by decide

theorem test_witness_RunScopeBlocksMutators : ({ edge with active := true } : State).active = true := by decide

theorem test_witness_HostRegisterWriteSetsOneCell :
    (edge.windowInside ∧ edge.active = false) ∧ ((-1 : Int) < 0 ∧ (15 : Int) < 16 ∧ (65535 : Int) < 65536) := by decide

theorem test_witness_HostSetsPcUnchecked : edge.active = false ∧ edge.mem.size ≤ 64 := by decide

/-- A load that ends on the last cell, and one that goes one cell beyond. -/
theorem test_witness_HostLoadWritesItsCellsOnly :
    edge.active = false ∧ 62 + [1#16, 2#16].length ≤ edge.mem.size ∧ [1#16, 2#16][1]? = some 2#16 ∧
      edge.mem.size < 63 + [1#16, 2#16].length := by decide

theorem test_witness_HostReadsAnswerTheState : edge.windowInside ∧ 63 < edge.mem.size := by decide

end Sys2Proof.Tests
end

section
/-! No instruction is refused: the shared operations behind the arms of `exec` complete or fault, and every row of the
opcode table is one of them (spec/00_scope.md R2; spec/30_encoding.md R60). -/

namespace Sys2Proof.Machine

/-- A raised fault is no refusal (R81). -/
theorem raise_ne_refused (f : Fault) (r : Refusal) : raise f ≠ .refused r := by
  simp [raise]

/-- The A-class handler completes or faults, in any state (R48). -/
theorem execA_ne_refused (op : AluOp) (dst opa opb : RegField) (s : State) (r : Refusal) :
    execA op dst opa opb s ≠ .refused r := by
  rw [execA_eq]
  split_ifs <;> exact nofun

/-- The I-class handler completes or faults, in any state (R75). -/
theorem execI_ne_refused (merge : Word → Byte → Word) (d : RegField) (imm : Byte) (s : State) (r : Refusal) :
    execI merge d imm s ≠ .refused r := by
  rw [execI_eq]
  split_ifs <;> exact nofun

/-- Settles O37: each row of the opcode table is answered by the A-class handler, the I-class handler or a raised
fault, and none of the three refuses. -/
theorem noInstructionIsRefused : Obligations.NoInstructionIsRefused := by
  intro i s r
  cases i with
  | and | or | xor | add | sub | cmp => exact execA_ne_refused _ _ _ _ _ _
  | ldl | ldh => exact execI_ne_refused _ _ _ _ _
  | invalidAClassTyp3 | invalidIClassOpc2to3 | invalidIClassOpc4to7 => exact raise_ne_refused _ _
  | unimplementedCls02to03 | unimplementedCls04to07 | unimplementedCls10to1F => exact raise_ne_refused _ _

end Sys2Proof.Machine
end

section
/-! What an instruction that completes changes, said once for all rows of the opcode table: one cell or none, the
flags, and pc (spec/10_state.md R16, R17; spec/43_absent_families.md R114). -/

namespace Sys2Proof.Machine

/-- The register an A-class operation writes: CMP writes none (R50). -/
def AluOp.dest (op : AluOp) (dst : RegField) : Option RegField := if op = .cmp then none else some dst

/-- Memory changes by one existing cell, the register d, or not at all. -/
def WritesAtMost (d : Option RegField) (s t : State) : Prop :=
  match d with
  | none => t.mem = s.mem
  | some d => s.W + d.toNat < s.mem.size ∧ ∃ v, t.mem = s.mem.put (s.W + d.toNat) v

/-- What a completed instruction with destination d does, the flags apart. -/
structure Completes (d : Option RegField) (s t : State) : Prop where
  pc : t.pc = s.pc + 1
  control : SameControl s t
  mem : WritesAtMost d s t

theorem execA_completes {op : AluOp} {dst opa opb : RegField} {s t : State}
    (h : execA op dst opa opb s = .next t) : Completes (op.dest dst) s t := by
  obtain ⟨rfl, hd⟩ := execA_next h
  rw [aOut, alu_wr, decide_eq_true_iff] at hd
  by_cases hop : op = .cmp
  · have hmem : aMem s dst (aOut op opa opb s) = s.mem := by simp [aMem, aOut, alu_wr, hop]
    exact ⟨rfl, ⟨rfl, rfl, rfl, congrArg Memory.size hmem⟩, by simpa [AluOp.dest, hop, WritesAtMost] using hmem⟩
  · have hmem : aMem s dst (aOut op opa opb s) = s.mem.put (s.W + dst.toNat) (aOut op opa opb s).res := by
      simp [aMem, aOut, alu_wr, hop]
    refine ⟨rfl, ⟨rfl, rfl, rfl, ?_⟩, ?_⟩
    · simp [hmem]
    · simpa [AluOp.dest, hop, WritesAtMost] using ⟨hd hop, _, hmem⟩

theorem execI_completes {merge : Word → Byte → Word} {d : RegField} {imm : Byte} {s t : State}
    (h : execI merge d imm s = .next t) : Completes (some d) s t := by
  obtain ⟨hd, rfl⟩ := execI_next h
  exact ⟨rfl, ⟨rfl, rfl, rfl, Memory.put_size _ _ _⟩, hd, _, rfl⟩

/-- A raised fault is no completion (R81). -/
theorem raise_ne_next (f : Fault) (t : State) : raise f ≠ .next t := by
  simp [raise]

/-- Everything a completed instruction can do, the flags apart. -/
theorem exec_completes {i : Instr} {s t : State} (h : exec i s = .next t) : Completes (destOf i) s t := by
  cases i with
  | and | or | xor | add | sub | cmp => exact execA_completes h
  | ldl | ldh => exact execI_completes h
  | invalidAClassTyp3 | invalidIClassOpc2to3 | invalidIClassOpc4to7 => exact absurd h (raise_ne_next _ _)
  | unimplementedCls02to03 | unimplementedCls04to07 | unimplementedCls10to1F => exact absurd h (raise_ne_next _ _)

/-- A completed step began at a cell that exists and ran its word (R46). -/
theorem step_next {s t : State} (h : step s = .next t) :
    s.pc < s.mem.size ∧ exec (decode (s.mem.cell s.pc)) s = .next t := by
  obtain ⟨-, hs⟩ | ⟨hpc, hs⟩ := step_cases s
  · exact absurd (hs.symm.trans h) (raise_ne_next _ _)
  · exact ⟨hpc, hs.symm.trans h⟩

theorem WritesAtMost.wf {d : Option RegField} {s t : State} (h : WritesAtMost d s t) (hw : s.mem.wf) : t.mem.wf := by
  cases d with
  | none => rwa [show t.mem = s.mem from h]
  | some d =>
    obtain ⟨hd, v, hm⟩ := h
    exact hm ▸ Memory.put_wf hw hd v

/-- The invariant reads only what a completed instruction keeps: W, the size of memory, and its canonical form. -/
theorem Completes.inv {d : Option RegField} {s t : State} (h : Completes d s t) (hi : s.Inv) : t.Inv := by
  obtain ⟨hwin, hwf⟩ := hi
  obtain ⟨hW, -, -, hsize⟩ := h.control
  exact ⟨by rwa [State.windowInside, hW, hsize], h.mem.wf hwf⟩

/-- Settles O38: a completed step is a completed instruction, which keeps the invariant. -/
theorem stepKeepsStateInvariant : Obligations.StepKeepsStateInvariant := by
  intro s t hi h
  obtain ⟨-, hexec⟩ := step_next h
  exact (exec_completes hexec).inv hi

/-- Settles O22: every row of the opcode table completes as `Completes` says, with its own destination. -/
theorem everyInstructionKeepsItsFrame : Obligations.EveryInstructionKeepsItsFrame := by
  intro i s t h
  obtain ⟨hpc, hcontrol, hmem⟩ := exec_completes h
  refine ⟨hpc, hcontrol, fun d hd b hb => ?_, fun hd => ?_⟩
  · rw [hd] at hmem
    obtain ⟨-, v, hput⟩ := hmem
    rw [State.operandAddr_eq] at hb
    rw [hput, Memory.read_put_ne _ hb]
  · rwa [hd] at hmem

/-- Settles O26: the advance is the instruction's, and the fetch bounds pc from above. -/
theorem pcAdvancesByOneAndNeverWraps : Obligations.PcAdvancesByOneAndNeverWraps := by
  intro s t h
  obtain ⟨hpc, hexec⟩ := step_next h
  obtain ⟨hadv, ⟨-, -, -, hsize⟩, -⟩ := exec_completes hexec
  exact ⟨hpc, hadv, by omega⟩

end Sys2Proof.Machine
end

section
/-! What reads neither the flags nor the run scope nor the hook: a state that differs only in these gives the same
outcome, with the difference carried over to the next state (spec/10_state.md R18, R19, R23). -/

namespace Sys2Proof.Machine

/-- The outcome with its next state, if there is one, replaced by g of it. -/
def onNext (g : State → State) (r : StepResult) : StepResult :=
  match r with
  | .next t => .next (g t)
  | .fault f => .fault f
  | .refused q => .refused q

@[simp] theorem onNext_next (g : State → State) (t : State) : onNext g (.next t) = .next (g t) := rfl
@[simp] theorem onNext_fault (g : State → State) (f : Fault) : onNext g (.fault f) = .fault f := rfl

/-- A register read sees only memory and W (R36). -/
theorem withReg_onNext {g : State → State} {s s' : State} {k k' : Word → StepResult} (f : RegField)
    (hmem : s'.mem = s.mem) (hW : s'.W = s.W) (hk : ∀ v, k' v = onNext g (k v)) :
    withReg f s' k' = onNext g (withReg f s k) := by
  simp only [withReg_eq, State.reg_regIndex, hmem, hW]
  split
  · exact hk _
  · rfl

/-- A register write sees only memory and W, and is not gated (R23, R36). -/
theorem withRegWritten_onNext {g : State → State} {s s' : State} {k k' : State → StepResult} (f : RegField) (v : Word)
    (hmem : s'.mem = s.mem) (hW : s'.W = s.W) (hk : ∀ m, k' (s'.setMem m) = onNext g (k (s.setMem m))) :
    withRegWritten f v s' k' = onNext g (withRegWritten f v s k) := by
  simp only [withRegWritten_eq, hmem, hW]
  split
  · exact hk _
  · rfl

/-- The old C and V never reach the ALU's result (R28). -/
theorem alu_res_eq (op : AluOp) (a b : Word) (C V C' V' : Bool) : (alu op a b C V).res = (alu op a b C' V').res := by
  cases op <;> rfl

/-- The A-class handler sees memory, W, and what its operation does with the old C and V. -/
theorem execA_onNext {g : State → State} {s s' : State} {op : AluOp} (dst opa opb : RegField)
    (hmem : s'.mem = s.mem) (hW : s'.W = s.W)
    (hnext : ∀ a b m, ((s'.setMem m).setFlags (alu op a b s'.C s'.V)).advance =
      g ((s.setMem m).setFlags (alu op a b s.C s.V)).advance) :
    execA op dst opa opb s' = onNext g (execA op dst opa opb s) := by
  refine withReg_onNext opa hmem hW fun a => withReg_onNext opb hmem hW fun b => ?_
  have hself : s'.setMem s.mem = s' := by rw [← hmem]; rfl
  simp only [alu_wr, alu_res_eq op a b s'.C s'.V s.C s.V]
  split
  · exact withRegWritten_onNext dst _ hmem hW fun m => congrArg Host.Outcome.next (hnext a b m)
  · exact congrArg Host.Outcome.next (hself ▸ hnext a b s.mem)

/-- The I-class handler sees memory and W. -/
theorem execI_onNext {g : State → State} {s s' : State} (merge : Word → Byte → Word) (d : RegField) (imm : Byte)
    (hmem : s'.mem = s.mem) (hW : s'.W = s.W) (hnext : ∀ m, (s'.setMem m).advance = g (s.setMem m).advance) :
    execI merge d imm s' = onNext g (execI merge d imm s) :=
  withReg_onNext d hmem hW fun _ =>
    withRegWritten_onNext d _ hmem hW fun m => congrArg Host.Outcome.next (hnext m)

/-! Other flags before the step. -/

/-- The state after an instruction, had the flags before it been z, n, c, v: the arithmetic group hides all four, the
logic group passes C and V on, and an I-class instruction passes all four on (R18). -/
def flagsPassed (i : Instr) (z n c v : Bool) (t : State) : State :=
  if isArithmetic i then t
  else if isIClass i then t.withFlags z n c v
  else t.withFlags t.Z t.S c v

section
variable (s : State) (z n c v : Bool)

theorem execA_arith_withFlags {op : AluOp} (h : op = .add ∨ op = .sub ∨ op = .cmp) (dst opa opb : RegField) :
    execA op dst opa opb (s.withFlags z n c v) = onNext id (execA op dst opa opb s) := by
  refine execA_onNext dst opa opb rfl rfl fun a b m => ?_
  rcases h with rfl | rfl | rfl <;> rfl

theorem execA_logic_withFlags {op : AluOp} (h : op = .and ∨ op = .or ∨ op = .xor) (dst opa opb : RegField) :
    execA op dst opa opb (s.withFlags z n c v) =
      onNext (fun t => t.withFlags t.Z t.S c v) (execA op dst opa opb s) := by
  refine execA_onNext dst opa opb rfl rfl fun a b m => ?_
  rcases h with rfl | rfl | rfl <;> rfl

theorem execI_withFlags (merge : Word → Byte → Word) (d : RegField) (imm : Byte) :
    execI merge d imm (s.withFlags z n c v) = onNext (·.withFlags z n c v) (execI merge d imm s) :=
  execI_onNext merge d imm rfl rfl fun _ => rfl

/-- Every instruction with other flags before it. -/
theorem exec_withFlags (i : Instr) :
    exec i (s.withFlags z n c v) = onNext (flagsPassed i z n c v) (exec i s) := by
  cases i with
  | add | sub | cmp => exact execA_arith_withFlags s z n c v (by decide) _ _ _
  | and | or | xor => exact execA_logic_withFlags s z n c v (by decide) _ _ _
  | ldl | ldh => exact execI_withFlags s z n c v _ _ _
  | invalidAClassTyp3 | invalidIClassOpc2to3 | invalidIClassOpc4to7 => rfl
  | unimplementedCls02to03 | unimplementedCls04to07 | unimplementedCls10to1F => rfl

end

theorem exec_withFlags_next {i : Instr} {s t : State} (h : exec i s = .next t) (z n c v : Bool) :
    exec i (s.withFlags z n c v) = .next (flagsPassed i z n c v t) := by
  rw [exec_withFlags, h, onNext_next]

/-- The flags before the instruction are themselves passed on: what `flagsPassed` carries over is what is kept. -/
theorem exec_next_flagsPassed {i : Instr} {s t : State} (h : exec i s = .next t) :
    t = flagsPassed i s.Z s.S s.C s.V t := by
  have hself : exec i s = .next (flagsPassed i s.Z s.S s.C s.V t) := exec_withFlags_next h s.Z s.S s.C s.V
  rw [h] at hself
  exact Host.Outcome.next.inj hself

/-- Whatever the group, `flagsPassed` replaces flags and nothing else. -/
theorem flagsPassed_keeps (i : Instr) (z n c v : Bool) (t : State) :
    ∃ z' n' c' v', flagsPassed i z n c v t = t.withFlags z' n' c' v' := by
  unfold flagsPassed
  split_ifs
  · exact ⟨t.Z, t.S, t.C, t.V, rfl⟩
  · exact ⟨z, n, c, v, rfl⟩
  · exact ⟨t.Z, t.S, c, v, rfl⟩

/-- LDL and LDH are not of the arithmetic group. -/
theorem isArithmetic_of_isIClass {i : Instr} (h : isIClass i = true) : isArithmetic i = false := by
  cases i with
  | ldl | ldh => rfl
  | _ => exact absurd h Bool.false_ne_true

/-- A step that faults leaves the host with the state before it (R81). -/
theorem hostStep_of_fault {s : State} {f : Fault} (h : step s = .fault f) : hostStep s = (s, .fault f) := by
  simp [hostStep, h]

/-- Settles O19: each row of R18's table is what `flagsPassed` carries over for its group. -/
theorem flagWritersFollowTheTable : Obligations.FlagWritersFollowTheTable := by
  refine ⟨fun i s t z n c v h ha => ?_, fun i s t z n c v h _ ha hi => ?_, fun i s t h hi => ?_, fun s f h => ?_,
    fun c => ⟨rfl, rfl, rfl, rfl⟩⟩
  · have hpassed : flagsPassed i z n c v t = t := by simp [flagsPassed, ha]
    exact ⟨t, hpassed ▸ exec_withFlags_next h z n c v, rfl, rfl, rfl, rfl⟩
  · have hpassed (z n c v) : flagsPassed i z n c v t = t.withFlags t.Z t.S c v := by simp [flagsPassed, ha, hi]
    have hkept : t = t.withFlags t.Z t.S s.C s.V := (exec_next_flagsPassed h).trans (hpassed _ _ _ _)
    refine ⟨(congrArg State.C hkept :), (congrArg State.V hkept :), _, exec_withFlags_next h z n c v, ?_⟩
    rw [hpassed]
    exact ⟨rfl, rfl⟩
  · have hkept : t = t.withFlags s.Z s.S s.C s.V := by
      simpa [flagsPassed, hi, isArithmetic_of_isIClass hi] using exec_next_flagsPassed h
    exact ⟨(congrArg State.Z hkept :), (congrArg State.S hkept :), (congrArg State.C hkept :),
      (congrArg State.V hkept :)⟩
  · rw [hostStep_of_fault h]
    exact ⟨rfl, rfl, rfl, rfl⟩

/-- Settles O20: the outcome with other flags is the same outcome but for the flags of the next state. -/
theorem instructionsReadNoFlag : Obligations.InstructionsReadNoFlag := by
  intro i s z n c v
  refine ⟨fun f h => ?_, fun t h => ⟨_, exec_withFlags_next h z n c v, ?_⟩⟩
  · rw [exec_withFlags, h, onNext_fault]
  · obtain ⟨z', n', c', v', hflags⟩ := flagsPassed_keeps i z n c v t
    rw [hflags]
    exact ⟨rfl, rfl, rfl, rfl, rfl⟩

/-! Another run scope and hook before the step. -/

/-- The state with another run scope bit and another I/O hook. -/
abbrev State.withScope (s : State) (g : Bool) (h : Option IoHook) : State := { s with active := g, ioHook := h }

section
variable (s : State) (g : Bool) (h : Option IoHook)

theorem execA_withScope (op : AluOp) (dst opa opb : RegField) :
    execA op dst opa opb (s.withScope g h) = onNext (·.withScope g h) (execA op dst opa opb s) :=
  execA_onNext dst opa opb rfl rfl fun _ _ _ => by cases op <;> rfl

theorem execI_withScope (merge : Word → Byte → Word) (d : RegField) (imm : Byte) :
    execI merge d imm (s.withScope g h) = onNext (·.withScope g h) (execI merge d imm s) :=
  execI_onNext merge d imm rfl rfl fun _ => rfl

/-- No instruction reads or writes active or the hook (R23, R24). -/
theorem exec_withScope (i : Instr) : exec i (s.withScope g h) = onNext (·.withScope g h) (exec i s) := by
  cases i with
  | and | or | xor | add | sub | cmp => exact execA_withScope s g h _ _ _ _
  | ldl | ldh => exact execI_withScope s g h _ _ _
  | invalidAClassTyp3 | invalidIClassOpc2to3 | invalidIClassOpc4to7 => rfl
  | unimplementedCls02to03 | unimplementedCls04to07 | unimplementedCls10to1F => rfl

/-- The step reads active nowhere (R46). -/
theorem step_withScope : step (s.withScope g h) = onNext (·.withScope g h) (step s) := by
  have hfetch : fetch (s.withScope g h) = fetch s := rfl
  unfold step
  rw [hfetch]
  cases fetch s with
  | none => rfl
  | some insn => exact exec_withScope s g h (decode insn)

end

/-- Settles O25: the step commutes with a change of active and the hook. -/
theorem stepIsNeverGated : Obligations.StepIsNeverGated := by
  intro s g h s'
  have hstep : step s' = onNext (·.withScope g h) (step s) := step_withScope s g h
  refine ⟨fun t ht => ?_, fun f hf => ?_⟩
  · rw [hstep, ht, onNext_next]
  · rw [hstep, hf, onNext_fault]

end Sys2Proof.Machine
end

section
/-! The invariant along every host action, and what it excludes (spec/10_state.md R17, R26; spec/60_exceptions.md R81;
spec/70_reset_and_hazards.md R103 to R109). -/

namespace Sys2Proof.Machine

/-- A legal construction puts the window, at W = 0, inside a zero-filled memory (R26, R98). -/
theorem State.construct_inv {c : Config} (h : c.legal = true) : (State.construct c).Inv := by
  have hsize : 16 ≤ c.memSize := of_decide_eq_true h
  exact ⟨by simpa using hsize, Memory.empty_wf c.memSize⟩

/-- Settles O39: the model's reset state is the construction with the default parameters. -/
theorem constructedStateMeetsInvariant : Obligations.ConstructedStateMeetsInvariant :=
  ⟨fun _ h => State.construct_inv h, State.construct_inv (c := Config.default) (by decide)⟩

/-- A canonical memory of the same size keeps the invariant. -/
theorem State.setMem_inv {s : State} {m : Memory} (hi : s.Inv) (hsize : m.size = s.mem.size) (hwf : m.wf) :
    (s.setMem m).Inv :=
  ⟨by simpa [State.windowInside, hsize] using hi.1, hwf⟩

theorem hostStep_inv {s : State} (hi : s.Inv) : (hostStep s).1.Inv := by
  unfold hostStep
  split
  · next t h => exact stepKeepsStateInvariant s t hi h
  · exact hi
  · exact hi

/-- A host register write is a write to an existing cell, or refused (R104, D20). -/
theorem writeRegisterExternal_inv {s : State} (hi : s.Inv) (r v : Int) : (writeRegisterExternal r v s).Inv := by
  unfold writeRegisterExternal
  split_ifs
  · exact hi
  · split
    · next m hm =>
      obtain ⟨hin, rfl⟩ := Memory.write_eq_some.mp hm
      exact State.setMem_inv hi (Memory.put_size _ _ _) (Memory.put_wf hi.2 hin _)
    · exact hi
  · exact hi

theorem setPcExternal_inv {s : State} (hi : s.Inv) (p : Nat) : (setPcExternal p s).Inv := by
  unfold setPcExternal
  split_ifs <;> exact hi

/-- A load that fits writes existing cells; any other is refused whole (R106, D16). -/
theorem loadProgram_inv {s : State} (hi : s.Inv) (ws : List Word) (start : Nat) : (loadProgram ws start s).1.Inv := by
  unfold loadProgram
  split_ifs with _ hfits
  · exact hi
  · exact State.setMem_inv hi (Memory.putAll_size _ _ _) (Memory.putAll_wf hi.2 hfits)
  · exact hi

/-- The window moves only to where it lies inside memory (R107, D5). -/
theorem setWindowExternal_inv {s : State} (hi : s.Inv) (w : Nat) : (setWindowExternal w s).Inv := by
  unfold setWindowExternal
  split_ifs with _ hin
  · exact hi
  · exact ⟨hin, hi.2⟩
  · exact hi

theorem rebindIoHook_inv {s : State} (hi : s.Inv) (hook : Option IoHook) : (rebindIoHook hook s).Inv := by
  unfold rebindIoHook
  split_ifs <;> exact hi

/-- A reset with MEMSIZE below 16 is refused, and leaves the state. -/
theorem hostReset_inv {s : State} (hi : s.Inv) (c : Config) : (hostAct (.reset c) s).1.Inv := by
  simp only [hostAct]
  split_ifs with hlegal
  · exact State.construct_inv hlegal
  · exact hi

/-- Settles O40: one lemma per host action that changes W or memory; the others touch neither. -/
theorem hostActionsKeepStateInvariant : Obligations.HostActionsKeepStateInvariant := by
  intro op s hi
  cases op with
  | reset c => exact hostReset_inv hi c
  | step => exact hostStep_inv hi
  | writeRegisterExternal r v => exact writeRegisterExternal_inv hi r v
  | setPcExternal p => exact setPcExternal_inv hi p
  | loadProgram ws start => exact loadProgram_inv hi ws start
  | setWindowExternal w => exact setWindowExternal_inv hi w
  | rebindIoHook hook => exact rebindIoHook_inv hi hook
  | enterRunScope | exitRunScope | read => exact hi

/-- The invariant holds of every reachable state. -/
theorem Reachable.inv {s : State} (h : Reachable s) : s.Inv := by
  induction h with
  | construct c hlegal => exact State.construct_inv hlegal
  | act op s _ ih => exact hostActionsKeepStateInvariant op s ih

/-- The outcome is a next state or one of the three faults the spec names (R81, R82). -/
def CompletesOrNamedFault (r : StepResult) : Prop := (∃ t, r = .next t) ∨ ∃ f, r = .fault f ∧ f.code ≠ none

/-- With the window inside memory no operand is missing, so only a reserved row faults. -/
theorem exec_completesOrNamedFault {s : State} (h : s.windowInside) (i : Instr) :
    CompletesOrNamedFault (exec i s) := by
  cases i with
  | and | or | xor | add | sub | cmp => exact .inl ⟨_, execA_inside h _ _ _ _⟩
  | ldl | ldh => exact .inl ⟨_, execI_inside h _ _ _⟩
  | invalidAClassTyp3 | invalidIClassOpc2to3 | invalidIClassOpc4to7 => exact .inr ⟨_, rfl, by simp [Fault.code]⟩
  | unimplementedCls02to03 | unimplementedCls04to07 | unimplementedCls10to1F =>
    exact .inr ⟨_, rfl, by simp [Fault.code]⟩

theorem step_completesOrNamedFault {s : State} (h : s.windowInside) : CompletesOrNamedFault (step s) := by
  obtain ⟨-, hs⟩ | ⟨-, hs⟩ := step_cases s
  · exact .inr ⟨_, hs, by simp [Fault.code]⟩
  · exact hs ▸ exec_completesOrNamedFault h _

/-- Settles O41: a reachable state meets the invariant, and the invariant excludes the model's own fault. -/
theorem reachableStatesAreSafe : Obligations.ReachableStatesAreSafe := by
  intro s h
  exact ⟨h.inv, step_completesOrNamedFault h.inv.1⟩

/-- Settles O43: a legal reset is the construction, and a zero-filled memory answers every read inside it. -/
theorem resetValues : Obligations.ResetValues := by
  intro c s hlegal t
  have ht : t = State.construct c := by simp [t, hostAct, hlegal]
  rw [ht]
  refine ⟨rfl, rfl, fun a ha => ?_, fun r => rfl, rfl, rfl, rfl, rfl, rfl, rfl, rfl, rfl⟩
  exact Memory.read_inside (m := (State.construct c).mem) ha

/-- Settles O47: each of the five mutators looks at active first (R22). -/
theorem runScopeBlocksMutators : Obligations.RunScopeBlocksMutators := by
  intro s hactive
  refine ⟨fun r v => ?_, fun p => ?_, fun ws a => ?_, fun w => ?_, fun hook => ?_⟩
  · simp [hostAct, writeRegisterExternal, hactive]
  · simp [hostAct, setPcExternal, hactive]
  · simp [hostAct, loadProgram, hactive]
  · simp [hostAct, setWindowExternal, hactive]
  · simp [hostAct, rebindIoHook, hactive]

end Sys2Proof.Machine
end

section
/-! The canonical form determines the memory: what is listed is what reads as something other than 0x0000
(spec/10_state.md R11). -/

namespace Sys2Proof.Machine

/-- In a list of rising addresses a listed cell is the one that is looked up. -/
theorem lookupCell_of_mem {l : List MemCell} (hl : l.Pairwise (fun x y => x.1 < y.1)) {c : MemCell} (hc : c ∈ l) :
    lookupCell l c.1 = c.2 := by
  induction l with
  | nil => simp at hc
  | cons d rest ih =>
    obtain ⟨hd, hrest⟩ := List.pairwise_cons.mp hl
    rcases List.mem_cons.mp hc with rfl | hc
    · exact if_pos rfl
    · exact (if_neg (hd c hc).ne).trans (ih hrest hc)

/-- What does not look up as 0x0000 is listed. -/
theorem mem_of_lookupCell_ne_zero {l : List MemCell} {a : Nat} (h : lookupCell l a ≠ 0#16) :
    (a, lookupCell l a) ∈ l := by
  induction l with
  | nil => exact absurd rfl h
  | cons d rest ih =>
    obtain ⟨b, u⟩ := d
    by_cases hb : b = a
    · simp [lookupCell, hb]
    · simp only [lookupCell, if_neg hb] at h ⊢
      exact List.mem_cons_of_mem _ (ih h)

/-- What a canonical memory lists, by what its cells hold. -/
theorem Memory.mem_cells_iff {m : Memory} (hw : m.wf) (c : MemCell) :
    c ∈ m.cells ↔ c.1 < m.size ∧ m.cell c.1 = c.2 ∧ c.2 ≠ 0#16 := by
  obtain ⟨hrising, hcells⟩ := hw
  constructor
  · intro hc
    exact ⟨(hcells c hc).2, lookupCell_of_mem hrising hc, (hcells c hc).1⟩
  · rintro ⟨-, hcell, hne⟩
    have hlisted : (c.1, m.cell c.1) ∈ m.cells := mem_of_lookupCell_ne_zero (hcell.trans_ne hne)
    rwa [hcell] at hlisted

/-- Lists of rising addresses with the same entries are equal. -/
theorem rising_eq_of_mem_iff {l l' : List MemCell} (hl : l.Pairwise (fun x y => x.1 < y.1))
    (hl' : l'.Pairwise (fun x y => x.1 < y.1)) (h : ∀ c, c ∈ l ↔ c ∈ l') : l = l' := by
  have : Std.Antisymm (fun x y : MemCell => x.1 < y.1) := ⟨fun _ _ hxy hyx => absurd hxy hyx.asymm⟩
  have : Std.Irrefl (fun x y : MemCell => x.1 < y.1) := ⟨fun x => lt_irrefl x.1⟩
  exact hl.eq_of_mem_iff hl' h

/-- Settles O42: equal cells list the same entries, and rising order leaves one list of them. -/
theorem canonicalMemoriesWithEqualCellsAreEqual : Obligations.CanonicalMemoriesWithEqualCellsAreEqual := by
  intro m m' hw hw' hsize hcell
  have hcells : m.cells = m'.cells := by
    refine rising_eq_of_mem_iff hw.1 hw'.1 fun c => ?_
    rw [Memory.mem_cells_iff hw, Memory.mem_cells_iff hw', ← hsize]
    exact and_congr_right fun hin => by rw [hcell c.1 hin]
  cases m
  cases m'
  exact congrArg₂ Memory.mk hsize hcells

end Sys2Proof.Machine
end

section
/-! The register window over memory, for the host and for an instruction (spec/20_memory.md R36, R38). -/

namespace Sys2Proof.Machine

/-- With the window inside memory the host reads register r at the cell W + r (R36, R109). -/
theorem hostRead_register {s : State} (h : s.windowInside) {r : Nat} (hr : r ≤ 15) :
    hostRead (.register r) s = .word (s.mem.cell (s.W + r)) := by
  have hcell : s.mem.read (s.W + r) = some (s.mem.cell (s.W + r)) := Memory.read_inside (by omega)
  simp [hostRead, hr, hcell]

/-- Settles O45: the translator is W + r by definition, register access inside the window is access to that cell, and
a completed step is a completed instruction, which keeps W. -/
theorem registerIsWindowCell : Obligations.RegisterIsWindowCell := by
  refine ⟨fun W r => rfl, fun s r => rfl, fun s f => ?_, fun s r h hr => hostRead_register h hr, fun s f k h => ?_,
    fun s f v k h => ?_, fun s t h => ?_⟩
  · have hf : f.toNat < 8 := f.isLt
    rw [State.operandAddr_eq]
    exact ⟨rfl, by omega⟩
  · rw [withReg_inside h, State.reg_regIndex]
  · exact ⟨_, Memory.write_inside (State.operandAddr_inside h f) v, withRegWritten_inside h f v k⟩
  · obtain ⟨-, hexec⟩ := step_next h
    obtain ⟨hW, -, -, -⟩ := (exec_completes hexec).control
    exact hW

/-- The two gates of the window move, run scope and bounds, as one condition (R107). -/
theorem setWindowExternal_eq (w : Nat) (s : State) :
    setWindowExternal w s = if s.active = false ∧ w + 16 ≤ s.mem.size then { s with W := w } else s := by
  unfold setWindowExternal
  cases s.active with
  | true => simp
  | false => simp

/-- Settles O46: an allowed move replaces W, so the host's register read goes to the new window over the old cells. -/
theorem windowMoveChangesOnlyW : Obligations.WindowMoveChangesOnlyW := by
  intro s w
  have hmove : hostAct (.setWindowExternal w) s =
      (if s.active = false ∧ w + 16 ≤ s.mem.size then { s with W := w } else s, .silent) :=
    congrArg (·, HostReply.silent) (setWindowExternal_eq w s)
  refine ⟨hmove, fun hactive hin r hr => ?_⟩
  rw [hmove, if_pos ⟨hactive, hin⟩]
  exact hostRead_register (s := { s with W := w }) hin hr

end Sys2Proof.Machine
end

section
/-! The fetch after a register write: the word is read from memory afresh at every step (spec/20_memory.md R43;
spec/30_encoding.md R46, R48). -/

namespace Sys2Proof.Machine

/-- A step executes what the cell at pc holds (R46). -/
theorem step_of_read {s : State} {w : Word} (h : s.mem.read s.pc = some w) : step s = exec (decode w) s := by
  simp [step, fetch, h]

/-- Settles O28: the instruction's value stands in its destination's cell after the step, and a later fetch of that
cell, wherever pc meets it, executes the value. -/
theorem nextFetchSeesRegisterWrite : Obligations.NextFetchSeesRegisterWrite := by
  intro s w d hwin hw hd
  obtain ⟨v, t, hv, hexec, hmem, hpc, hW⟩ := exec_writes hwin hd
  have hread : t.mem.read (s.operandAddr d) = some v := by
    rw [hmem, State.operandAddr_eq, Memory.read_put_self (State.operandAddr_inside hwin d)]
  have hreg : t.reg (regIndex d) = v := by
    rw [State.reg_regIndex, hW, hmem, Memory.cell_put_self]
  refine ⟨v, t, hv, hexec, (step_of_read hw).trans hexec, hpc, hreg, hread, fun hnext => ?_, fun hown => ?_⟩
  · rw [hnext, ← hpc] at hread
    exact step_of_read hread
  · rw [hown] at hread
    exact ⟨hread, step_of_read (s := { t with pc := s.pc }) hread⟩

end Sys2Proof.Machine
end

section
/-! What a step reads of memory: with another memory that agrees on the cell at pc and the cells W to W + 7, the step
makes the same register write, now into the other memory (spec/20_memory.md R33; spec/43_absent_families.md R114). -/

namespace Sys2Proof.Machine

/-- The memory m has the size of the state's memory and agrees with it on the cells W to W + 7. -/
structure SameLowWindow (s : State) (m : Memory) : Prop where
  size : m.size = s.mem.size
  low : ∀ k, k < 8 → m.cell (s.W + k) = s.mem.cell (s.W + k)

/-- The memory with at most one register of the window at W written. -/
def Memory.putReg (m : Memory) (W : Nat) : Option (RegField × Word) → Memory
  | none => m
  | some (d, v) => m.put (W + d.toNat) v

@[simp] theorem Memory.putReg_size (m : Memory) (W : Nat) (wr : Option (RegField × Word)) :
    (m.putReg W wr).size = m.size := by
  cases wr with
  | none => rfl
  | some dv => exact Memory.put_size _ _ _

/-- A register write changes no cell outside W to W + 7. -/
theorem Memory.cell_putReg_outside (m : Memory) {W a : Nat} (h : a < W ∨ W + 8 ≤ a) (wr : Option (RegField × Word)) :
    (m.putReg W wr).cell a = m.cell a := by
  cases wr with
  | none => rfl
  | some dv =>
    have hd : dv.1.toNat < 8 := dv.1.isLt
    exact Memory.cell_put_ne m (by omega) dv.2

/-- The same register write keeps the agreement of two memories on a cell. -/
theorem Memory.cell_putReg_congr {m m' : Memory} {a : Nat} (h : m'.cell a = m.cell a) (W : Nat)
    (wr : Option (RegField × Word)) : (m'.putReg W wr).cell a = (m.putReg W wr).cell a := by
  cases wr with
  | none => exact h
  | some dv =>
    by_cases ha : a = W + dv.1.toNat
    · simp only [Memory.putReg, ha, Memory.cell_put_self]
    · simp only [Memory.putReg, Memory.cell_put_ne _ ha, h]

/-- An instruction's field reaches a cell on which the memories agree (R36). -/
theorem SameLowWindow.reg_eq {s : State} {m : Memory} (h : SameLowWindow s m) (f : RegField) :
    (s.setMem m).reg (regIndex f) = s.reg (regIndex f) := by
  rw [State.reg_regIndex, State.reg_regIndex]
  exact h.low f.toNat f.isLt

/-- The register write of an A-class operation, from its result (R50). -/
def aWrite (dst : RegField) (o : AluOut) : Option (RegField × Word) := if o.wr then some (dst, o.res) else none

theorem aMem_eq_putReg (s : State) (dst : RegField) (o : AluOut) : aMem s dst o = s.mem.putReg s.W (aWrite dst o) := by
  unfold aMem aWrite
  split <;> rfl

/-- The A-class handler with another memory: its operands, so its result, flags and faults, are the same. -/
theorem execA_setMem {s : State} {m : Memory} (h : SameLowWindow s m) (op : AluOp) (dst opa opb : RegField) :
    execA op dst opa opb (s.setMem m) =
      onNext (·.setMem (m.putReg s.W (aWrite dst (aOut op opa opb s)))) (execA op dst opa opb s) := by
  have hout : aOut op opa opb (s.setMem m) = aOut op opa opb s := by
    simp only [aOut, h.reg_eq, State.setMem_C, State.setMem_V]
  simp only [execA_eq, hout, aMem_eq_putReg, State.setMem_mem, State.setMem_W, h.size]
  split_ifs <;> rfl

/-- The I-class handler with another memory: the old value it merges into is the same. -/
theorem execI_setMem {s : State} {m : Memory} (h : SameLowWindow s m) (merge : Word → Byte → Word) (d : RegField)
    (imm : Byte) :
    execI merge d imm (s.setMem m) =
      onNext (·.setMem (m.putReg s.W (some (d, merge (s.reg (regIndex d)) imm)))) (execI merge d imm s) := by
  simp only [execI_eq, h.reg_eq, State.setMem_mem, State.setMem_W, h.size]
  split_ifs <;> rfl

/-- An instruction makes one register write or none, the same into every memory with the same low window. -/
theorem exec_setMem (i : Instr) (s : State) :
    ∃ wr, ∀ m, SameLowWindow s m → exec i (s.setMem m) = onNext (·.setMem (m.putReg s.W wr)) (exec i s) := by
  cases i with
  | and | or | xor | add | sub | cmp => exact ⟨_, fun m h => execA_setMem h _ _ _ _⟩
  | ldl | ldh => exact ⟨_, fun m h => execI_setMem h _ _ _⟩
  | invalidAClassTyp3 | invalidIClassOpc2to3 | invalidIClassOpc4to7 => exact ⟨none, fun _ _ => rfl⟩
  | unimplementedCls02to03 | unimplementedCls04to07 | unimplementedCls10to1F => exact ⟨none, fun _ _ => rfl⟩

/-- The fetch reads the cell at pc and the size of memory, nothing else (R46). -/
theorem fetch_setMem {s : State} {m : Memory} (hsize : m.size = s.mem.size) (hpc : m.cell s.pc = s.mem.cell s.pc) :
    fetch (s.setMem m) = fetch s := by
  simp only [fetch, Memory.read, State.setMem_mem, State.setMem_pc, hsize, hpc]

/-- A step makes the same register write into every memory that agrees on the low window and the fetched cell. -/
theorem step_setMem (s : State) :
    ∃ wr, ∀ m, SameLowWindow s m → m.cell s.pc = s.mem.cell s.pc →
      step (s.setMem m) = onNext (·.setMem (m.putReg s.W wr)) (step s) := by
  cases hf : fetch s with
  | none =>
    refine ⟨none, fun m h hpc => ?_⟩
    simp only [step, fetch_setMem h.size hpc, hf, raise, State.setMem_pc, onNext_fault]
  | some insn =>
    obtain ⟨wr, hexec⟩ := exec_setMem (decode insn) s
    refine ⟨wr, fun m h hpc => ?_⟩
    simp only [step, fetch_setMem h.size hpc, hf, hexec m h]

/-- Settles O24: the step's one register write, made into the state's own memory and into m. -/
theorem stepReadsOnlyFetchedCellAndLowWindow : Obligations.StepReadsOnlyFetchedCellAndLowWindow := by
  intro s m hsize hpc hlow
  obtain ⟨wr, hstep⟩ := step_setMem s
  have hm := hstep m ⟨hsize, hlow⟩ hpc
  refine ⟨fun f hf => ?_, fun t ht => ?_⟩
  · rw [hm, hf, onNext_fault]
  · have hself : step s = onNext (·.setMem (s.mem.putReg s.W wr)) (step s) := hstep s.mem ⟨rfl, fun _ _ => rfl⟩ rfl
    rw [ht, onNext_next] at hself hm
    have hmem : t.mem = s.mem.putReg s.W wr := congrArg State.mem (Host.Outcome.next.inj hself)
    refine ⟨t.setMem (m.putReg s.W wr), hm, ⟨rfl, rfl, rfl, rfl⟩, rfl, ⟨rfl, rfl, rfl, ?_⟩, fun k hk => ?_,
      fun a ha => Memory.cell_putReg_outside m ha wr⟩
    · rw [State.setMem_mem, hmem, Memory.putReg_size, Memory.putReg_size, hsize]
    · rw [State.setMem_mem, hmem]
      exact Memory.cell_putReg_congr (hlow k hk) s.W wr

end Sys2Proof.Machine
end

section
/-! The rows of the opcode table by mask and match, in terms of the fields the decoder looks at
(spec/30_encoding.md R47, R49, R52, R55, R56). -/

namespace Sys2Proof

/-- A mask that leaves out the register fields keeps the class and typ bits it names (R55). -/
theorem encodeA_and_mask (c m : BitVec 5) (d a b : RegField) (t n : BitVec 2) :
    encodeA c d a b t &&& encodeA m 0#3 0#3 0#3 n = encodeA (c &&& m) 0#3 0#3 0#3 (t &&& n) := by
  apply BitVec.eq_of_getLsbD_eq
  intro i hi
  simp only [encodeA, BitVec.getLsbD_and, BitVec.getLsbD_append]
  interval_cases i <;> simp

/-- Such a mask tests the class and typ, each on its own. -/
theorem and_encodeA_eq_iff (w : Word) (m c : BitVec 5) (n t : BitVec 2) :
    w &&& encodeA m 0#3 0#3 0#3 n = encodeA c 0#3 0#3 0#3 t ↔ clsOf w &&& m = c ∧ typOf w &&& n = t := by
  have hmasked := encodeA_and_mask (clsOf w) m (dstOf w) (opaOf w) (opbOf w) (typOf w) n
  rw [encodeA_fields] at hmasked
  rw [hmasked]
  constructor
  · intro h
    exact ⟨by simpa only [clsOf_encodeA] using congrArg clsOf h, by simpa only [typOf_encodeA] using congrArg typOf h⟩
  · rintro ⟨rfl, rfl⟩
    rfl

/-- A mask on the class bits alone. -/
theorem and_clsMask_eq_iff (w : Word) (m c : BitVec 5) :
    w &&& encodeA m 0#3 0#3 0#3 0#2 = encodeA c 0#3 0#3 0#3 0#2 ↔ clsOf w &&& m = c := by
  simp [and_encodeA_eq_iff]

/-! The six reserved rows, each as the branch of the decoder that answers it. -/

theorem typ3Row_iff {w : Word} : w &&& 0xF003#16 = 0x0003#16 ↔ kindOf (clsOf w) = .aClass ∧ typOf w = 3#2 := by
  refine (and_encodeA_eq_iff w 0x1E#5 0x00#5 3#2 3#2).trans (and_congr ?_ ?_)
  · generalize clsOf w = c
    revert c
    decide
  · generalize typOf w = t
    revert t
    decide

theorem opc2to3Row_iff {w : Word} :
    w &&& 0xF000#16 = 0x5000#16 ↔
      kindOf (clsOf w) = .iClass ∧ opcOf w ≠ 0#3 ∧ opcOf w ≠ 1#3 ∧ (opcOf w).toNat ≤ 3 := by
  refine (and_clsMask_eq_iff w 0x1E#5 0x0A#5).trans ?_
  rw [opcOf_eq]
  generalize clsOf w = c
  revert c
  decide

theorem opc4to7Row_iff {w : Word} :
    w &&& 0xE000#16 = 0x6000#16 ↔ kindOf (clsOf w) = .iClass ∧ ¬ (opcOf w).toNat ≤ 3 := by
  refine (and_clsMask_eq_iff w 0x1C#5 0x0C#5).trans ?_
  rw [opcOf_eq]
  generalize clsOf w = c
  revert c
  decide

theorem cls02to03Row_iff {w : Word} :
    w &&& 0xF000#16 = 0x1000#16 ↔ kindOf (clsOf w) = .unimpl ∧ (clsOf w).toNat ≤ 0x03 := by
  refine (and_clsMask_eq_iff w 0x1E#5 0x02#5).trans ?_
  generalize clsOf w = c
  revert c
  decide

theorem cls04to07Row_iff {w : Word} :
    w &&& 0xE000#16 = 0x2000#16 ↔
      kindOf (clsOf w) = .unimpl ∧ ¬ (clsOf w).toNat ≤ 0x03 ∧ (clsOf w).toNat ≤ 0x07 := by
  refine (and_clsMask_eq_iff w 0x1C#5 0x04#5).trans ?_
  generalize clsOf w = c
  revert c
  decide

theorem cls10to1FRow_iff {w : Word} :
    w &&& 0x8000#16 = 0x8000#16 ↔ kindOf (clsOf w) = .unimpl ∧ ¬ (clsOf w).toNat ≤ 0x07 := by
  refine (and_clsMask_eq_iff w 0x10#5 0x10#5).trans ?_
  generalize clsOf w = c
  revert c
  decide

end Sys2Proof
end

section
/-! The decoder and the encoder are inverse to each other between the words and the well-formed terms
(spec/30_encoding.md R60, R61). -/

namespace Sys2Proof

/-! Decoding what the encoder answers. -/

/-- A word of the A format decodes by its own class and typ. -/
theorem decode_encodeA {cls : BitVec 5} (h : kindOf cls = .aClass) (d a b : RegField) (t : BitVec 2) :
    decode (encodeA cls d a b t) =
      if t = 3#2 then .invalidAClassTyp3 (encodeA cls d a b t)
      else if cls.extractLsb' 0 1 = 0#1 then
        if t = 0#2 then .and d a b else if t = 1#2 then .or d a b else .xor d a b
      else if t = 0#2 then .add d a b else if t = 1#2 then .sub d a b else .cmp d a b := by
  rw [decode_of_aClass (by rwa [clsOf_encodeA])]
  simp only [decodeA, typOf_encodeA, codeOf_encodeA, dstOf_encodeA, opaOf_encodeA, opbOf_encodeA]

/-- The top bits 01 make a word an I-class one, whatever its opc (R52). -/
theorem kindOf_iClass (opc : BitVec 3) : kindOf (1#2 ++ opc) = .iClass := by
  revert opc
  decide

/-- A word of the I format decodes by its own opc. -/
theorem decode_encodeI (opc : BitVec 3) (d : RegField) (imm : Byte) :
    decode (encodeI opc d imm) =
      if opc = 0#3 then .ldl d imm
      else if opc = 1#3 then .ldh d imm
      else if opc.toNat ≤ 3 then .invalidIClassOpc2to3 (encodeI opc d imm)
      else .invalidIClassOpc4to7 (encodeI opc d imm) := by
  rw [decode_of_iClass (by rw [clsOf_encodeI, kindOf_iClass])]
  simp only [decodeI, opcOf_encodeI, srcdstOf_encodeI, immOf_encodeI]

/-- Settles O2: an instruction's word decodes by its own fields, a reserved row's by the row it lies in. -/
theorem decodeOfEncodeIsIdentity : Obligations.DecodeOfEncodeIsIdentity := by
  intro i h
  cases i with
  | and d a b | or d a b | xor d a b | add d a b | sub d a b | cmp d a b => exact decode_encodeA (by decide) d a b _
  | ldl d imm | ldh d imm => exact decode_encodeI _ d imm
  | invalidAClassTyp3 w =>
    obtain ⟨hkind, htyp⟩ := typ3Row_iff.mp (of_decide_eq_true h)
    simp [encode, decode_of_aClass hkind, decodeA, htyp]
  | invalidIClassOpc2to3 w =>
    obtain ⟨hkind, h0, h1, hle⟩ := opc2to3Row_iff.mp (of_decide_eq_true h)
    simp [encode, decode_of_iClass hkind, decodeI, h0, h1, hle]
  | invalidIClassOpc4to7 w =>
    obtain ⟨hkind, hgt⟩ := opc4to7Row_iff.mp (of_decide_eq_true h)
    have h0 : opcOf w ≠ 0#3 := fun e => hgt (by simp [e])
    have h1 : opcOf w ≠ 1#3 := fun e => hgt (by simp [e])
    simp [encode, decode_of_iClass hkind, decodeI, h0, h1, hgt]
  | unimplementedCls02to03 w =>
    obtain ⟨hkind, hle⟩ := cls02to03Row_iff.mp (of_decide_eq_true h)
    simp [encode, decode_of_unimpl hkind, decodeUnimpl, hle]
  | unimplementedCls04to07 w =>
    obtain ⟨hkind, hgt, hle⟩ := cls04to07Row_iff.mp (of_decide_eq_true h)
    simp [encode, decode_of_unimpl hkind, decodeUnimpl, hgt, hle]
  | unimplementedCls10to1F w =>
    obtain ⟨hkind, hgt⟩ := cls10to1FRow_iff.mp (of_decide_eq_true h)
    have hgt3 : ¬ (clsOf w).toNat ≤ 0x03 := fun hle => hgt (by omega)
    simp [encode, decode_of_unimpl hkind, decodeUnimpl, hgt, hgt3]

/-! Encoding what the decoder answers. -/

/-- The term is well-formed and stands for this word. -/
def StandsFor (i : Instr) (w : Word) : Prop := wellFormed i = true ∧ encode i = w

/-- Every word is the A-format word of its class, its register fields and its typ. -/
theorem encodeA_of_cls_typ {w : Word} {c : BitVec 5} {t : BitVec 2} (hc : clsOf w = c) (ht : typOf w = t) :
    encodeA c (dstOf w) (opaOf w) (opbOf w) t = w := by
  rw [← hc, ← ht, encodeA_fields]

/-- An I-class word is the I-format word of its opc, srcdst and immediate. -/
theorem encodeI_of_opc {w : Word} {opc : BitVec 3} (hkind : kindOf (clsOf w) = .iClass) (hopc : opcOf w = opc) :
    encodeI opc (srcdstOf w) (immOf w) = w := by
  rw [← hopc, encodeI_fields (by rw [topBits_eq, kindOf_eq_iClass.mp hkind])]

/-- In the A-class code alone tells the two classes apart (R49). -/
theorem clsOf_of_code {w : Word} {c : BitVec 1} (h : kindOf (clsOf w) = .aClass) (hcode : codeOf w = c) :
    clsOf w = 0#4 ++ c := by
  rw [← hcode, codeOf_eq]
  revert h
  generalize clsOf w = cls
  revert cls
  decide

theorem typ_eq_two {t : BitVec 2} (h3 : t ≠ 3#2) (h0 : t ≠ 0#2) (h1 : t ≠ 1#2) : t = 2#2 := by
  revert t
  decide

theorem decodeA_standsFor {w : Word} (h : kindOf (clsOf w) = .aClass) : StandsFor (decodeA w) w := by
  unfold decodeA
  split_ifs with h3 hcode h0 h1 h0 h1
  · exact ⟨decide_eq_true (typ3Row_iff.mpr ⟨h, h3⟩), rfl⟩
  · exact ⟨rfl, encodeA_of_cls_typ (clsOf_of_code h hcode) h0⟩
  · exact ⟨rfl, encodeA_of_cls_typ (clsOf_of_code h hcode) h1⟩
  · exact ⟨rfl, encodeA_of_cls_typ (clsOf_of_code h hcode) (typ_eq_two h3 h0 h1)⟩
  all_goals have hcode1 : codeOf w = 1#1 := (BitVec.eq_zero_or_eq_one _).resolve_left hcode
  · exact ⟨rfl, encodeA_of_cls_typ (clsOf_of_code h hcode1) h0⟩
  · exact ⟨rfl, encodeA_of_cls_typ (clsOf_of_code h hcode1) h1⟩
  · exact ⟨rfl, encodeA_of_cls_typ (clsOf_of_code h hcode1) (typ_eq_two h3 h0 h1)⟩

theorem decodeI_standsFor {w : Word} (h : kindOf (clsOf w) = .iClass) : StandsFor (decodeI w) w := by
  unfold decodeI
  split_ifs with h0 h1 hle
  · exact ⟨rfl, encodeI_of_opc h h0⟩
  · exact ⟨rfl, encodeI_of_opc h h1⟩
  · exact ⟨decide_eq_true (opc2to3Row_iff.mpr ⟨h, h0, h1, hle⟩), rfl⟩
  · exact ⟨decide_eq_true (opc4to7Row_iff.mpr ⟨h, hle⟩), rfl⟩

theorem decodeUnimpl_standsFor {w : Word} (h : kindOf (clsOf w) = .unimpl) : StandsFor (decodeUnimpl w) w := by
  unfold decodeUnimpl
  split_ifs with h3 h7
  · exact ⟨decide_eq_true (cls02to03Row_iff.mpr ⟨h, h3⟩), rfl⟩
  · exact ⟨decide_eq_true (cls04to07Row_iff.mpr ⟨h, h3, h7⟩), rfl⟩
  · exact ⟨decide_eq_true (cls10to1FRow_iff.mpr ⟨h, h7⟩), rfl⟩

/-- Settles O3: in each of the three kinds of class the term answered is well-formed and stands for the word. -/
theorem encodeOfDecodeIsIdentity : Obligations.EncodeOfDecodeIsIdentity := by
  intro w
  cases hkind : kindOf (clsOf w) with
  | aClass => exact decode_of_aClass hkind ▸ decodeA_standsFor hkind
  | iClass => exact decode_of_iClass hkind ▸ decodeI_standsFor hkind
  | unimpl => exact decode_of_unimpl hkind ▸ decodeUnimpl_standsFor hkind

/-- The decoder answers the one well-formed term that stands for the word. -/
theorem decode_eq_iff {w : Word} {i : Instr} : decode w = i ↔ StandsFor i w := by
  constructor
  · rintro rfl
    exact encodeOfDecodeIsIdentity w
  · rintro ⟨hwf, rfl⟩
    exact decodeOfEncodeIsIdentity i hwf

/-! The opcode map by mask and match. -/

/-- The encoding of a well-formed instruction lies in its own row (R55). -/
theorem encode_in_row (i : Instr) : Laws.EncodesInRow.Statement i := by
  cases i with
  | and d a b => exact Laws.EncodesInRow.and d a b
  | or d a b => exact Laws.EncodesInRow.or d a b
  | xor d a b => exact Laws.EncodesInRow.xor d a b
  | add d a b => exact Laws.EncodesInRow.add d a b
  | sub d a b => exact Laws.EncodesInRow.sub d a b
  | cmp d a b => exact Laws.EncodesInRow.cmp d a b
  | ldl d imm => exact Laws.EncodesInRow.ldl d imm
  | ldh d imm => exact Laws.EncodesInRow.ldh d imm
  | invalidAClassTyp3 w => exact Laws.EncodesInRow.invalidAClassTyp3 w
  | invalidIClassOpc2to3 w => exact Laws.EncodesInRow.invalidIClassOpc2to3 w
  | invalidIClassOpc4to7 w => exact Laws.EncodesInRow.invalidIClassOpc4to7 w
  | unimplementedCls02to03 w => exact Laws.EncodesInRow.unimplementedCls02to03 w
  | unimplementedCls04to07 w => exact Laws.EncodesInRow.unimplementedCls04to07 w
  | unimplementedCls10to1F w => exact Laws.EncodesInRow.unimplementedCls10to1F w

/-- A row's mask and match hold exactly of the words that decode to the row, if the term read from a word of the row
stands for that word. -/
theorem row_iff_decode {w m v : Word} {i : Instr} (hrow : rowOf i = (m, v)) (h : w &&& m = v → StandsFor i w) :
    w &&& m = v ↔ decode w = i := by
  rw [decode_eq_iff]
  refine ⟨h, ?_⟩
  rintro ⟨hwf, rfl⟩
  simpa only [hrow] using encode_in_row i hwf

/-- A word of an instruction's row of the A-class is put together from that row's class and typ. -/
theorem encodeA_of_row {w : Word} {c : BitVec 5} {t : BitVec 2} (h : w &&& 0xF803#16 = encodeA c 0#3 0#3 0#3 t) :
    encodeA c (dstOf w) (opaOf w) (opbOf w) t = w := by
  obtain ⟨hc, ht⟩ := (and_encodeA_eq_iff w (BitVec.allOnes 5) c (BitVec.allOnes 2) t).mp h
  rw [BitVec.and_allOnes] at hc ht
  exact encodeA_of_cls_typ hc ht

/-- The fixed bits of the I format are a class number (R47, R52). -/
theorem encodeI_fixed (opc : BitVec 3) : encodeI opc 0#3 0#8 = encodeA (1#2 ++ opc) 0#3 0#3 0#3 0#2 := by
  revert opc
  decide

/-- A word of an instruction's row of the I-class is put together from that row's opc. -/
theorem encodeI_of_row {w : Word} {opc : BitVec 3} (h : w &&& 0xF800#16 = encodeI opc 0#3 0#8) :
    encodeI opc (srcdstOf w) (immOf w) = w := by
  have hcls : clsOf w = 1#2 ++ opc := by
    have hmasked := (and_clsMask_eq_iff w (BitVec.allOnes 5) _).mp (h.trans (encodeI_fixed opc))
    rwa [BitVec.and_allOnes] at hmasked
  have hopc : opcOf w = opc := by rw [opcOf_eq, hcls, BitVec.extractLsb'_append_eq_right]
  exact encodeI_of_opc (hcls ▸ kindOf_iClass opc) hopc

/-- Settles O5: a reserved row's term carries the word itself, an instruction's is put together from the row's fixed
bits and the word's fields. -/
theorem rowsOfOpcodeMapDecode : Obligations.RowsOfOpcodeMapDecode := by
  intro w d a b imm
  refine ⟨?and, ?or, ?xor, ?add, ?sub, ?cmp, ?ldl, ?ldh, ?typ3, ?opc2to3, ?opc4to7, ?cls02to03, ?cls04to07,
    ?cls10to1F⟩
  case and | or | xor | add | sub | cmp => exact row_iff_decode rfl fun h => ⟨rfl, encodeA_of_row h⟩
  case ldl | ldh => exact row_iff_decode rfl fun h => ⟨rfl, encodeI_of_row h⟩
  case typ3 | opc2to3 | opc4to7 | cls02to03 | cls04to07 | cls10to1F =>
    exact row_iff_decode rfl fun h => ⟨decide_eq_true h, rfl⟩

end Sys2Proof
end

section
/-! The encoded words as numbers, and samples of the opcode map (spec/30_encoding.md R58, R61, R62). -/

namespace Sys2Proof

/-- A field put above n lower bits counts 2 ^ n times. -/
theorem toNat_append_eq_add {m n : Nat} (x : BitVec m) (y : BitVec n) :
    (x ++ y).toNat = x.toNat * 2 ^ n + y.toNat := by
  rw [BitVec.toNat_append, ← Nat.shiftLeft_add_eq_or_of_lt y.isLt, Nat.shiftLeft_eq]

/-- The A-format word as the sum of its fixed part and its register fields (R58). -/
theorem encodeA_toNat (cls : BitVec 5) (d a b : RegField) (t : BitVec 2) :
    (encodeA cls d a b t).toNat = cls.toNat * 2048 + t.toNat + d.toNat * 256 + a.toNat * 32 + b.toNat * 4 := by
  simp only [encodeA, toNat_append_eq_add]
  ring

/-- The I-format word as the sum of its fixed part, its register field and its immediate (R58). -/
theorem encodeI_toNat (opc : BitVec 3) (d : RegField) (imm : Byte) :
    (encodeI opc d imm).toNat = 0x4000 + opc.toNat * 2048 + d.toNat * 256 + imm.toNat := by
  simp only [encodeI, toNat_append_eq_add, BitVec.toNat_ofNat]
  ring

/-- Settles O4: the fixed part of each sum is the row's class or opc, and its typ. -/
theorem encodedWordIsSumOfFields : Obligations.EncodedWordIsSumOfFields := by
  intro d a b imm
  exact ⟨encodeA_toNat 0 d a b 0, encodeA_toNat 0 d a b 1, encodeA_toNat 0 d a b 2, encodeA_toNat 1 d a b 0,
    encodeA_toNat 1 d a b 1, encodeA_toNat 1 d a b 2, encodeI_toNat 0 d imm, encodeI_toNat 1 d imm⟩

/-- Settles O1: each sample word is the encoding of its term. -/
theorem sampleWordsDecode : Obligations.SampleWordsDecode := by
  simp only [Obligations.SampleWordsDecode, decode_eq_iff, StandsFor]
  decide

end Sys2Proof
end

section
/-! The step by the class of the fetched word (spec/30_encoding.md R46, R47, R60). -/

namespace Sys2Proof.Machine

/-- Settles O6: with no cell at pc there is no word to run. -/
theorem stepRunsDecodedInstruction : Obligations.StepRunsDecodedInstruction := by
  intro s
  refine ⟨fun w i hw hi => ?_, fun hnone => ?_⟩
  · rw [step_of_read hw, hi]
  · simp [step, fetch, hnone, raise]

/-- The A-class by its class numbers (R47). -/
theorem kindOf_eq_aClass_iff_toNat {c : BitVec 5} : kindOf c = .aClass ↔ c.toNat = 0x00 ∨ c.toNat = 0x01 := by
  revert c
  decide

/-- The I-class by its class numbers (R47). -/
theorem kindOf_eq_iClass_iff_toNat {c : BitVec 5} : kindOf c = .iClass ↔ 0x08 ≤ c.toNat ∧ c.toNat ≤ 0x0F := by
  revert c
  decide

/-- The A-class by its top bits (R47). -/
theorem kindOf_eq_aClass_iff_topBits {c : BitVec 5} : kindOf c = .aClass ↔ c.extractLsb' 1 4 = 0#4 := by
  revert c
  decide

/-- Each of the three rows of undecoded classes raises UnimplementedInstruction with the word (R83). -/
theorem exec_decodeUnimpl (w : Word) (s : State) :
    exec (decodeUnimpl w) s = .fault (.unimplementedInstruction s.pc w) := by
  unfold decodeUnimpl
  split_ifs <;> rfl

/-- The four top bits are those of cls. -/
theorem topFourBits_eq (w : Word) : w.extractLsb' 12 4 = (clsOf w).extractLsb' 1 4 := by
  apply BitVec.eq_of_getLsbD_eq
  intro i hi
  simp only [clsOf, BitVec.getLsbD_extractLsb']
  interval_cases i <;> simp

/-- Settles O7: the kind of the class selects the decoder's branch, whose term the step runs. -/
theorem classDispatchOfStep : Obligations.ClassDispatchOfStep := by
  intro s w hw cls
  refine ⟨fun h => ?_, fun h => ?_, fun h => ?_, fun t ht => ?_, ?_, ?_⟩
  · rw [step_of_read hw, decode_of_aClass (kindOf_eq_aClass_iff_toNat.mpr h)]
  · rw [step_of_read hw, decode_of_iClass (kindOf_eq_iClass_iff_toNat.mpr h)]
  · apply hostStep_of_fault
    rw [step_of_read hw, decode_of_unimpl (kindOf_eq_unimpl.mpr h), exec_decodeUnimpl]
  · obtain ⟨-, hpc, -⟩ := pcAdvancesByOneAndNeverWraps s t ht
    exact hpc
  · rw [topFourBits_eq]
    exact kindOf_eq_aClass_iff_toNat.symm.trans kindOf_eq_aClass_iff_topBits
  · rw [topBits_eq]
    exact kindOf_eq_iClass_iff_toNat.symm.trans kindOf_eq_iClass

/-- With the window inside memory the eight instructions complete, and the reserved rows do not. -/
theorem exec_completes_iff {s : State} (h : s.windowInside) (i : Instr) :
    (∃ t, exec i s = .next t) ↔ isInstruction i = true := by
  cases i with
  | and | or | xor | add | sub | cmp => exact iff_of_true ⟨_, execA_inside h _ _ _ _⟩ rfl
  | ldl | ldh => exact iff_of_true ⟨_, execI_inside h _ _ _⟩ rfl
  | invalidAClassTyp3 | invalidIClassOpc2to3 | invalidIClassOpc4to7 =>
    exact iff_of_false (fun ⟨_, ht⟩ => raise_ne_next _ _ ht) Bool.false_ne_true
  | unimplementedCls02to03 | unimplementedCls04to07 | unimplementedCls10to1F =>
    exact iff_of_false (fun ⟨_, ht⟩ => raise_ne_next _ _ ht) Bool.false_ne_true

/-- Settles O35: a step completes when there is a cell at pc and its instruction completes. -/
theorem stepCompletesExactlyOnInstructions : Obligations.StepCompletesExactlyOnInstructions := by
  intro s h
  rw [← exec_completes_iff h]
  constructor
  · rintro ⟨t, ht⟩
    obtain ⟨hpc, hexec⟩ := step_next ht
    exact ⟨hpc, t, hexec⟩
  · rintro ⟨hpc, t, ht⟩
    exact ⟨t, (step_of_read (Memory.read_inside hpc)).trans ht⟩

end Sys2Proof.Machine
end

section
/-! CMP's unused field (spec/30_encoding.md R51), and the constant that LDL and LDH build up in a register
(spec/30_encoding.md R59; spec/42_i_class.md R79). -/

namespace Sys2Proof.Machine

/-- What CMP does, without the field dst: it reads two registers and writes the flags (R67). -/
theorem exec_cmp (d a b : RegField) (s : State) :
    exec (.cmp d a b) s =
      withReg a s fun x => withReg b s fun y => .next (s.setFlags (aluCmp x y)).advance := rfl

/-- Settles O16: CMP's row of the opcode map and its encoding carry dst, its meaning does not name it. -/
theorem cmpIgnoresDstField : Obligations.CmpIgnoresDstField := by
  refine ⟨fun w hw => ?_, fun d d' a b s => ?_, fun d a b => ?_, fun d a b s t h => ?_⟩
  · exact decode_eq_iff.mpr ⟨rfl, encodeA_of_row hw⟩
  · rw [exec_cmp, exec_cmp]
  · exact decodeOfEncodeIsIdentity _ rfl
  · exact (exec_completes h).mem

/-- An I-class instruction leaves the merged value in its register, and keeps the window inside memory and the
flags (R75). -/
theorem execI_writes {s : State} (h : s.windowInside) (merge : Word → Byte → Word) (d : RegField) (imm : Byte) :
    ∃ t, execI merge d imm s = .next t ∧ t.windowInside ∧
      t.reg (regIndex d) = merge (s.reg (regIndex d)) imm ∧ SameFlags s t := by
  refine ⟨_, execI_inside h merge d imm, by simpa [State.windowInside] using h, ?_, rfl, rfl, rfl, rfl⟩
  rw [State.reg_regIndex]
  exact Memory.cell_put_self _ _ _

/-- Of two I-class instructions on one register the second merges into what the first wrote. -/
theorem execI_twice {s : State} (h : s.windowInside) (f g : Word → Byte → Word) (d : RegField) (x y : Byte) :
    ∃ t u, execI f d x s = .next t ∧ execI g d y t = .next u ∧
      u.reg (regIndex d) = g (f (s.reg (regIndex d)) x) y ∧ SameFlags s u := by
  obtain ⟨t, ht, hwin, htreg, hZ, hS, hC, hV⟩ := execI_writes h f d x
  obtain ⟨u, hu, -, hureg, hZ', hS', hC', hV'⟩ := execI_writes hwin g d y
  rw [htreg] at hureg
  exact ⟨t, u, ht, hu, hureg, hZ'.trans hZ, hS'.trans hS, hC'.trans hC, hV'.trans hV⟩

/-- Settles O17: whichever byte is loaded first, the second load keeps it. -/
theorem byteLoadsPutAnyConstant : Obligations.ByteLoadsPutAnyConstant := by
  intro s rd k h lo hi
  have hk : k.extractLsb' 8 8 ++ k.extractLsb' 0 8 = k := by
    exact (BitVec.extractLsb'_append_extractLsb'_eq_extractLsb' rfl).trans BitVec.extractLsb'_eq_self
  refine ⟨rfl, ?_, ?_⟩
  · have hlohi := execI_twice h mergeLow mergeHigh rd (k.extractLsb' 0 8) (k.extractLsb' 8 8)
    rwa [mergeHigh_eq, mergeLow_eq, BitVec.extractLsb'_append_eq_right, hk] at hlohi
  · have hhilo := execI_twice h mergeHigh mergeLow rd (k.extractLsb' 8 8) (k.extractLsb' 0 8)
    rwa [mergeLow_eq, mergeHigh_eq, BitVec.extractLsb'_append_eq_left, hk] at hhilo

end Sys2Proof.Machine
end

section
/-! ADD, SUB and CMP: the flags they take from the ALU, and what these say of the signed and unsigned values
(spec/40_a_class_arith.md R65 to R67, R69). -/

namespace Sys2Proof.Machine

/-- The flags are those of the ALU's answer. -/
structure HasFlags (t : State) (o : AluOut) : Prop where
  Z : t.Z = o.Z
  S : t.S = o.S
  C : t.C = o.C
  V : t.V = o.V

/-- With the window inside memory an A-class instruction completes with the flags the ALU answers (R28). -/
theorem execA_hasFlags {s : State} (h : s.windowInside) (op : AluOp) (dst opa opb : RegField) :
    ∃ t, execA op dst opa opb s = .next t ∧ HasFlags t (aOut op opa opb s) :=
  ⟨_, execA_inside h op dst opa opb, rfl, rfl, rfl, rfl⟩

theorem exec_add_hasFlags {s : State} (h : s.windowInside) (dst opa opb : RegField) :
    ∃ t, exec (.add dst opa opb) s = .next t ∧ HasFlags t (aluAdd (s.reg (regIndex opa)) (s.reg (regIndex opb))) :=
  execA_hasFlags h .add dst opa opb

theorem exec_sub_hasFlags {s : State} (h : s.windowInside) (dst opa opb : RegField) :
    ∃ t, exec (.sub dst opa opb) s = .next t ∧ HasFlags t (aluSub (s.reg (regIndex opa)) (s.reg (regIndex opb))) :=
  execA_hasFlags h .sub dst opa opb

/-- CMP's flags are those of SUB (R67). -/
theorem exec_cmp_hasFlags {s : State} (h : s.windowInside) (dst opa opb : RegField) :
    ∃ t, exec (.cmp dst opa opb) s = .next t ∧
      HasFlags t (aluSub (s.reg (regIndex opa)) (s.reg (regIndex opb))) := by
  obtain ⟨t, ht, hZ, hS, hC, hV⟩ := execA_hasFlags h .cmp dst opa opb
  exact ⟨t, ht, hZ, hS, hC, hV⟩

/-- An instruction that completes leaves its value in its destination register. -/
theorem exec_reg {s t : State} (h : s.windowInside) {i : Instr} (ht : exec i s = .next t) {d : RegField} {v : Word}
    (hd : destOf i = some d) (hv : valueWritten i s = some v) : t.reg (regIndex d) = v := by
  obtain ⟨v', t', hv', ht', hmem, -, hW⟩ := exec_writes h hd
  obtain rfl : t' = t := by simpa [ht] using ht'.symm
  obtain rfl : v' = v := by simpa [hv] using hv'.symm
  rw [State.reg_regIndex, hW, hmem, Memory.cell_put_self]

/-- Settles O11: the flags are the ALU's in closed form, the rest is the frame every instruction keeps. -/
theorem addWritesSumAndFlags : Obligations.AddWritesSumAndFlags := by
  intro s dst opa opb h a b sr
  obtain ⟨t, ht, hflags⟩ := exec_add_hasFlags h dst opa opb
  rw [aluAdd_eq] at hflags
  obtain ⟨hpc, hcontrol, hcells, -⟩ := everyInstructionKeepsItsFrame _ s t ht
  exact ⟨t, ht, exec_reg h ht rfl rfl, hflags.Z, hflags.S, hflags.C, hflags.V, hpc, hcontrol, hcells dst rfl⟩

/-- Settles O12: as for ADD, with the flags of the difference. -/
theorem subWritesDifferenceAndFlags : Obligations.SubWritesDifferenceAndFlags := by
  intro s dst opa opb h a b sr
  obtain ⟨t, ht, hflags⟩ := exec_sub_hasFlags h dst opa opb
  rw [aluSub_eq] at hflags
  obtain ⟨hpc, hcontrol, hcells, -⟩ := everyInstructionKeepsItsFrame _ s t ht
  exact ⟨t, ht, exec_reg h ht rfl rfl, hflags.Z, hflags.S, hflags.C, hflags.V, hpc, hcontrol, hcells dst rfl⟩

/-- Settles O13: CMP has the flags of SUB, and an instruction without a destination keeps memory whole. -/
theorem cmpWritesOnlyFlags : Obligations.CmpWritesOnlyFlags := by
  intro s dst opa opb h a b sr
  obtain ⟨t, ht, hflags⟩ := exec_cmp_hasFlags h dst opa opb
  rw [aluSub_eq] at hflags
  obtain ⟨hpc, hcontrol, -, hmem⟩ := everyInstructionKeepsItsFrame _ s t ht
  exact ⟨t, ht, hflags.Z, hflags.S, hflags.C, hflags.V, hpc, hcontrol, fun c => by rw [hmem rfl]⟩

/-! The signed readings: V on the sign bits is the library's signed overflow, which speaks of the exact sum or
difference. -/

theorem overflowAdd_eq_saddOverflow (a b : Word) : overflowAdd a.msb b.msb (a + b).msb = a.saddOverflow b := by
  rw [BitVec.saddOverflow_eq, overflowAdd]
  cases a.msb <;> cases b.msb <;> cases (a + b).msb <;> rfl

theorem overflowSub_eq_ssubOverflow (a b : Word) : overflowSub a.msb b.msb (a - b).msb = a.ssubOverflow b := by
  rw [BitVec.ssubOverflow_eq, overflowSub]
  cases a.msb <;> cases b.msb <;> cases (a - b).msb <;> rfl

theorem saddOverflow_iff (a b : Word) :
    a.saddOverflow b = true ↔ a.toInt + b.toInt < -32768 ∨ 32767 < a.toInt + b.toInt := by
  rw [BitVec.saddOverflow, Bool.or_eq_true, decide_eq_true_iff, decide_eq_true_iff]
  omega

theorem ssubOverflow_iff (a b : Word) :
    a.ssubOverflow b = true ↔ a.toInt - b.toInt < -32768 ∨ 32767 < a.toInt - b.toInt := by
  rw [BitVec.ssubOverflow, Bool.or_eq_true, decide_eq_true_iff, decide_eq_true_iff]
  omega

/-- An overflow means that the operands' signs differ and the result has the wrong one. -/
theorem msb_sub_of_ssubOverflow {a b : Word} (h : a.ssubOverflow b = true) :
    (a - b).msb = decide (0 ≤ a.toInt - b.toInt) := by
  rw [BitVec.ssubOverflow_eq, BitVec.msb_eq_toInt (x := a), BitVec.msb_eq_toInt (x := b)] at h
  simp only [Bool.or_eq_true, Bool.and_eq_true, Bool.not_eq_true', decide_eq_true_iff, decide_eq_false_iff_not] at h
  rcases h with ⟨⟨ha, hb⟩, hr⟩ | ⟨⟨ha, hb⟩, hr⟩
  · rw [hr, decide_eq_true (by omega)]
  · rw [hr, decide_eq_false (by omega)]

/-- S of a difference, corrected by V, is the sign of the exact difference: the signed comparison (R69). -/
theorem xor_ssubOverflow_iff (a b : Word) : Bool.xor (a - b).msb (a.ssubOverflow b) = true ↔ a.toInt < b.toInt := by
  cases hov : a.ssubOverflow b with
  | true =>
    rw [Bool.xor_true, msb_sub_of_ssubOverflow hov, ← decide_not, decide_eq_true_iff]
    omega
  | false =>
    rw [Bool.xor_false, BitVec.msb_eq_toInt, BitVec.toInt_sub_of_not_ssubOverflow (by simp [hov]), decide_eq_true_iff]
    omega

/-- The flags of SUB as facts about the operands' values (R69). -/
theorem HasFlags.closedForms_sub {t : State} {a b : Word} (h : HasFlags t (aluSub a b)) :
    (t.C = true ↔ a.toNat < b.toNat) ∧
      (t.V = true ↔ a.toInt - b.toInt < -32768 ∨ 32767 < a.toInt - b.toInt) ∧
      (t.Z = true ↔ a = b) ∧ t.S = (a - b).msb ∧ (Bool.xor t.S t.V = true ↔ a.toInt < b.toInt) := by
  rw [aluSub_eq, overflowSub_eq_ssubOverflow] at h
  refine ⟨?_, ?_, ?_, h.S, ?_⟩
  · rw [h.C, decide_eq_true_iff]
  · rw [h.V, ssubOverflow_iff]
  · rw [h.Z, decide_eq_true_iff]
  · rw [h.S, h.V, xor_ssubOverflow_iff]

/-- The flags of ADD as facts about the operands' values (R69). -/
theorem HasFlags.closedForms_add {t : State} {a b : Word} (h : HasFlags t (aluAdd a b)) :
    (t.C = true ↔ 65536 ≤ a.toNat + b.toNat) ∧
      (t.V = true ↔ a.toInt + b.toInt < -32768 ∨ 32767 < a.toInt + b.toInt) ∧
      (t.Z = true ↔ a = 0#16 ∧ b = 0#16) ∧ t.S = (a + b).msb := by
  rw [aluAdd_eq, overflowAdd_eq_saddOverflow] at h
  refine ⟨?_, ?_, ?_, h.S⟩
  · rw [h.C, decide_eq_true_iff]
    omega
  · rw [h.V, saddOverflow_iff]
  · rw [h.Z, decide_eq_true_iff, Nat.add_eq_zero_iff, ← BitVec.toNat_inj,
      ← BitVec.toNat_inj (x := b), BitVec.toNat_zero]

/-- Settles O18: SUB and CMP have one set of flags, and S of ADD is read off the register it writes. -/
theorem flagsHaveClosedForms : Obligations.FlagsHaveClosedForms := by
  intro s d opa opb h a b
  refine ⟨?_, ?_⟩
  · obtain ⟨t, ht, hflags⟩ := exec_add_hasFlags h d opa opb
    obtain ⟨hC, hV, hZ, hS⟩ := hflags.closedForms_add
    exact ⟨t, ht, hC, hV, hZ, hS.trans (by rw [exec_reg h ht rfl rfl])⟩
  · rintro i (rfl | rfl)
    · obtain ⟨t, ht, hflags⟩ := exec_sub_hasFlags h d opa opb
      exact ⟨t, ht, hflags.closedForms_sub⟩
    · obtain ⟨t, ht, hflags⟩ := exec_cmp_hasFlags h d opa opb
      exact ⟨t, ht, hflags.closedForms_sub⟩

end Sys2Proof.Machine
end

section
/-! AND, OR and XOR: Z and S come from the 16-bit result, C and V pass through (spec/41_a_class_logic.md R70 to R73),
and the stale C and V this leaves behind (spec/41_a_class_logic.md R74; spec/70_reset_and_hazards.md R111). -/

namespace Sys2Proof.Machine

/-- What AND, OR and XOR have in common, from the flags of the ALU's logic shape on: the closed form of the flags, the
written register, and the frame (R70). -/
theorem exec_of_logicFlags {s : State} (h : s.windowInside) {i : Instr} {dst : RegField} {r : Word}
    (hd : destOf i = some dst) (hv : valueWritten i s = some r)
    (hlogic : ∃ t, exec i s = .next t ∧ HasFlags t (aluLogic r s.C s.V)) :
    ∃ t, exec i s = .next t ∧
      t.reg (regIndex dst) = r ∧ t.Z = decide (r = 0#16) ∧ t.S = r.msb ∧ t.C = s.C ∧ t.V = s.V ∧
      t.pc = s.pc + 1 ∧ SameControl s t ∧ CellsKeptExcept (s.operandAddr dst) s t := by
  obtain ⟨t, ht, hflags⟩ := hlogic
  rw [aluLogic_eq] at hflags
  obtain ⟨hpc, hcontrol, hcells, -⟩ := everyInstructionKeepsItsFrame _ s t ht
  exact ⟨t, ht, exec_reg h ht hd hv, hflags.Z, hflags.S, hflags.C, hflags.V, hpc, hcontrol, hcells dst hd⟩

/-- The words of either A-class with typ = 3 raise InvalidEncoding (R84). -/
theorem exec_of_typ3Row {w : Word} (hw : w &&& 0xF003#16 = 0x0003#16) (s : State) :
    exec (decode w) s = .fault (.invalidEncoding s.pc w) := by
  have hdecode : decode w = .invalidAClassTyp3 w := decode_eq_iff.mpr ⟨decide_eq_true hw, rfl⟩
  rw [hdecode]
  rfl

/-- Settles O8: the words of class 0 with typ 3 are among those of the typ-3 row, whose mask leaves out the code bit. -/
theorem andWritesBitwiseAnd : Obligations.AndWritesBitwiseAnd := by
  refine ⟨fun w hw => ?_, fun w s hw => ?_, fun s dst opa opb h => ?_⟩
  · exact decode_eq_iff.mpr ⟨rfl, encodeA_of_row hw⟩
  · have hrow : w &&& (0xF803#16 &&& 0xF003#16) = 0x0003#16 &&& 0xF003#16 := by rw [← BitVec.and_assoc, hw]
    exact exec_of_typ3Row hrow s
  · exact exec_of_logicFlags h rfl rfl (execA_hasFlags h .and dst opa opb)

/-- Settles O9: OR's row of the opcode map, and the logic shape with the inclusive or. -/
theorem orWritesBitwiseOr : Obligations.OrWritesBitwiseOr := by
  refine ⟨fun w hw => ?_, fun s dst opa opb h => ?_⟩
  · exact decode_eq_iff.mpr ⟨rfl, encodeA_of_row hw⟩
  · exact exec_of_logicFlags h rfl rfl (execA_hasFlags h .or dst opa opb)

/-- Settles O10: XOR's row of the opcode map, and the logic shape with the exclusive or. -/
theorem xorWritesBitwiseXor : Obligations.XorWritesBitwiseXor := by
  refine ⟨fun w hw => ?_, fun s dst opa opb h => ?_⟩
  · exact decode_eq_iff.mpr ⟨rfl, encodeA_of_row hw⟩
  · exact exec_of_logicFlags h rfl rfl (execA_hasFlags h .xor dst opa opb)

/-! Runs without ADD, SUB and CMP. -/

/-- Outside the arithmetic group the C and V given to `flagsPassed` come through (R18). -/
theorem flagsPassed_CV {i : Instr} (ha : isArithmetic i = false) (z n c v : Bool) (t : State) :
    (flagsPassed i z n c v t).C = c ∧ (flagsPassed i z n c v t).V = v := by
  rw [flagsPassed, if_neg (ne_true_of_eq_false ha)]
  split
  · exact ⟨rfl, rfl⟩
  · exact ⟨rfl, rfl⟩

/-- Only the arithmetic group writes C and V (R18, R70, R75). -/
theorem exec_keeps_CV {i : Instr} {s t : State} (h : exec i s = .next t) (ha : isArithmetic i = false) :
    t.C = s.C ∧ t.V = s.V := by
  rw [exec_next_flagsPassed h]
  exact flagsPassed_CV ha _ _ _ _ t

/-- A run of n + 1 steps completes when its first step does and the n steps from there do. -/
theorem runSteps_succ_eq_next {n : Nat} {s t : State} :
    runSteps (n + 1) s = .next t ↔ ∃ u, step s = .next u ∧ runSteps n u = .next t := by
  rw [runSteps]
  cases step s <;> simp

/-- Settles O21, by induction on the number of steps: the run after the first step is a run whose every word is a word
of the whole run. -/
theorem carryOverflowStaleWithoutArithmetic : Obligations.CarryOverflowStaleWithoutArithmetic := by
  intro n
  induction n with
  | zero =>
    rintro s _ ⟨⟩ -
    exact ⟨rfl, rfl⟩
  | succ n ih =>
    intro s t h hnone
    obtain ⟨u, hstep, hrun⟩ := runSteps_succ_eq_next.mp h
    obtain ⟨-, hexec⟩ := step_next hstep
    obtain ⟨hC, hV⟩ := exec_keeps_CV hexec (hnone 0 s n.succ_pos rfl)
    obtain ⟨hC', hV'⟩ := ih u t hrun fun k v hk hv =>
      hnone (k + 1) v (Nat.succ_lt_succ hk) (runSteps_succ_eq_next.mpr ⟨u, hstep, hv⟩)
    exact ⟨hC'.trans hC, hV'.trans hV⟩

end Sys2Proof.Machine
end

section
/-! LDL and LDH one at a time: one byte of the register is replaced, the flags and the rest of the state are kept
(spec/42_i_class.md R75, R77, R78). -/

namespace Sys2Proof.Machine

/-- What LDL and LDH have in common: with the window inside memory they complete, the value stands in srcdst, and the
flags and everything outside that cell are kept (R75). -/
theorem exec_of_iClass {s : State} (h : s.windowInside) {i : Instr} {srcdst : RegField} {r : Word}
    (hi : isIClass i = true) (hd : destOf i = some srcdst) (hv : valueWritten i s = some r) :
    ∃ t, exec i s = .next t ∧ t.reg (regIndex srcdst) = r ∧
      SameFlags s t ∧ t.pc = s.pc + 1 ∧ SameControl s t ∧ CellsKeptExcept (s.operandAddr srcdst) s t := by
  obtain ⟨-, t, -, ht, -⟩ := exec_writes h hd
  obtain ⟨-, -, hflags, -⟩ := flagWritersFollowTheTable
  obtain ⟨hpc, hcontrol, hcells, -⟩ := everyInstructionKeepsItsFrame i s t ht
  exact ⟨t, ht, exec_reg h ht hd hv, hflags i s t ht hi, hpc, hcontrol, hcells srcdst hd⟩

/-- Settles O14: LDL is an I-class instruction whose value is the old high byte over the immediate. -/
theorem ldlReplacesLowByte : Obligations.LdlReplacesLowByte := by
  intro s srcdst imm h old
  exact exec_of_iClass h (i := .ldl srcdst imm) rfl rfl rfl

/-- Settles O15: LDH is an I-class instruction whose value is the immediate over the old low byte. -/
theorem ldhReplacesHighByte : Obligations.LdhReplacesHighByte := by
  intro s srcdst imm h old
  exact exec_of_iClass h (i := .ldh srcdst imm) rfl rfl rfl

end Sys2Proof.Machine
end

section
/-! What a program can reach: the cells W to W + 7 and no control state, along a straight line of pc that ends in a
fault (spec/43_absent_families.md R113, R114). -/

namespace Sys2Proof.Machine

/-- From s to t, no control state changes and no cell outside W to W + 7 (R114). -/
def WithinLowWindow (s t : State) : Prop :=
  SameControl s t ∧ ∀ a, a < s.W ∨ s.W + 8 ≤ a → t.mem.read a = s.mem.read a

theorem WithinLowWindow.refl (s : State) : WithinLowWindow s s := ⟨⟨rfl, rfl, rfl, rfl⟩, fun _ _ => rfl⟩

/-- The window stays where it was, so the cells outside it are the same for both parts. -/
theorem WithinLowWindow.trans {s u t : State} (hsu : WithinLowWindow s u) (hut : WithinLowWindow u t) :
    WithinLowWindow s t := by
  obtain ⟨⟨hW, hactive, hhook, hsize⟩, hcells⟩ := hsu
  obtain ⟨⟨hW', hactive', hhook', hsize'⟩, hcells'⟩ := hut
  refine ⟨⟨hW'.trans hW, hactive'.trans hactive, hhook'.trans hhook, hsize'.trans hsize⟩, fun a ha => ?_⟩
  rw [hcells' a (by rwa [hW]), hcells a ha]

/-- A three-bit field names one of the cells W to W + 7, so the cells outside are not the one written (R36). -/
theorem WritesAtMost.read_outside {d : Option RegField} {s t : State} (h : WritesAtMost d s t) {a : Nat}
    (ha : a < s.W ∨ s.W + 8 ≤ a) : t.mem.read a = s.mem.read a := by
  cases d with
  | none => rw [show t.mem = s.mem from h]
  | some d =>
    obtain ⟨-, v, hput⟩ := h
    have hd : d.toNat < 8 := d.isLt
    rw [hput, Memory.read_put_ne _ (by omega)]

theorem Completes.withinLowWindow {d : Option RegField} {s t : State} (h : Completes d s t) : WithinLowWindow s t :=
  ⟨h.control, fun _ ha => h.mem.read_outside ha⟩

/-- A completed step is a completed instruction with the destination of its word. -/
theorem step_completes {s t : State} (h : step s = .next t) : Completes (destOf (decode (s.mem.cell s.pc))) s t := by
  obtain ⟨-, hexec⟩ := step_next h
  exact exec_completes hexec

/-- Settles O23, by induction on the number of steps: each step stays within the low window, which does not move. -/
theorem programWritesOnlyLowWindow : Obligations.ProgramWritesOnlyLowWindow := by
  intro n
  induction n with
  | zero =>
    rintro s _ ⟨⟩
    exact WithinLowWindow.refl s
  | succ n ih =>
    intro s t h
    obtain ⟨u, hstep, hrun⟩ := runSteps_succ_eq_next.mp h
    exact (step_completes hstep).withinLowWindow.trans (ih u t hrun)

/-- k completed steps advance pc by k, and the last of them began inside memory (R16, R113). -/
theorem runSteps_pc (k : Nat) {s t : State} (h : runSteps k s = .next t) :
    t.pc = s.pc + k ∧ (0 < k → s.pc + k ≤ s.mem.size) := by
  induction k generalizing s with
  | zero =>
    cases h
    exact ⟨rfl, nofun⟩
  | succ k ih =>
    obtain ⟨u, hstep, hrun⟩ := runSteps_succ_eq_next.mp h
    obtain ⟨hinside, hadv, -⟩ := pcAdvancesByOneAndNeverWraps s u hstep
    obtain ⟨-, -, -, hsize⟩ := (step_completes hstep).control
    obtain ⟨hpc, hbound⟩ := ih hrun
    omega

/-- A step completes or faults: the fetch raises only OutOfBounds, and no instruction is refused (R46, R81). -/
theorem step_ne_refused (s : State) (r : Refusal) : step s ≠ .refused r := by
  obtain ⟨-, hs⟩ | ⟨-, hs⟩ := step_cases s
  · exact hs ▸ raise_ne_refused _ r
  · exact hs ▸ noInstructionIsRefused _ s r

/-- A run completes or faults, as its steps do. -/
theorem runSteps_next_or_fault (k : Nat) (s : State) :
    (∃ t, runSteps k s = .next t) ∨ ∃ f, runSteps k s = .fault f := by
  induction k generalizing s with
  | zero => exact .inl ⟨s, rfl⟩
  | succ k ih =>
    rw [runSteps]
    cases hstep : step s with
    | next u => exact ih u
    | fault f => exact .inr ⟨f, rfl⟩
    | refused r => exact absurd hstep (step_ne_refused s r)

/-- Settles O27: a run that completed would have advanced pc past the end of memory. -/
theorem runsAreStraightAndEndInFault : Obligations.RunsAreStraightAndEndInFault := by
  refine ⟨fun k s t h => runSteps_pc k h, fun k s hk => ?_⟩
  obtain ⟨t, ht⟩ | hfault := runSteps_next_or_fault k s
  · obtain ⟨-, hbound⟩ := runSteps_pc k ht
    omega
  · exact hfault

end Sys2Proof.Machine
end

section
/-! The exceptions: which words stop a step, with which report, and that nothing else does (spec/60_exceptions.md R81 to
R89). `StepFault` says once every way a step can fault; the statements about single faults are read off it. -/

namespace Sys2Proof.Machine

/-! The words that are no instruction. -/

/-- The class is decoded, and its sub-field has no meaning: typ = 3 in the A-class, opc 2 to 7 in the I-class (R76,
R84). -/
def InvalidSubEncoding (w : Word) : Prop :=
  kindOf (clsOf w) = .aClass ∧ typOf w = 3#2 ∨ kindOf (clsOf w) = .iClass ∧ opcOf w ≠ 0#3 ∧ opcOf w ≠ 1#3

/-- The invalid sub-encodings by class number: opc 2 to 7 of the I-class are the classes 0x0A to 0x0F. -/
theorem invalidSubEncoding_iff {w : Word} :
    InvalidSubEncoding w ↔
      (clsOf w).toNat ≤ 1 ∧ typOf w = 3#2 ∨ 0x0A ≤ (clsOf w).toNat ∧ (clsOf w).toNat ≤ 0x0F := by
  refine or_congr (and_congr_left' ?_) ?_
  · rw [kindOf_eq_aClass_iff_toNat]
    omega
  · rw [opcOf_eq]
    generalize clsOf w = c
    revert c
    decide

/-- A word has an undecoded class, an invalid sub-field, or decodes to one of the eight instructions (R60). -/
theorem decode_cases (w : Word) :
    kindOf (clsOf w) = .unimpl ∨ InvalidSubEncoding w ∨ isInstruction (decode w) = true := by
  cases hkind : kindOf (clsOf w) with
  | unimpl => exact .inl rfl
  | aClass =>
    rw [decode_of_aClass hkind, decodeA]
    split_ifs with h3
    · exact .inr (.inl (.inl ⟨hkind, h3⟩))
    all_goals exact .inr (.inr rfl)
  | iClass =>
    rw [decode_of_iClass hkind, decodeI]
    split_ifs with h0 h1
    · exact .inr (.inr rfl)
    · exact .inr (.inr rfl)
    all_goals exact .inr (.inl (.inr ⟨hkind, h0, h1⟩))

/-! The fault each kind of word raises. -/

/-- Settles O30: each of the three arms raises the fault whatever the state holds. -/
theorem unimplementedRowsStop : Obligations.UnimplementedRowsStop := fun _ _ => ⟨rfl, rfl, rfl⟩

/-- Settles O32: each of the three arms raises the fault whatever the state holds. -/
theorem invalidRowsStop : Obligations.InvalidRowsStop := fun _ _ => ⟨rfl, rfl, rfl⟩

/-- The decoder answers an invalid sub-encoding by one of the three invalid rows. -/
theorem exec_of_invalidSubEncoding {w : Word} (h : InvalidSubEncoding w) (s : State) :
    exec (decode w) s = .fault (.invalidEncoding s.pc w) := by
  obtain ⟨hkind, htyp⟩ | ⟨hkind, h0, h1⟩ := h
  · exact exec_of_typ3Row (typ3Row_iff.mpr ⟨hkind, htyp⟩) s
  · obtain ⟨-, hopc2to3, hopc4to7⟩ := invalidRowsStop w s
    rw [decode_of_iClass hkind, decodeI, if_neg h0, if_neg h1]
    split_ifs
    · exact hopc2to3
    · exact hopc4to7

/-- The A-class handler faults only at a missing register. -/
theorem execA_fault {op : AluOp} {dst opa opb : RegField} {s : State} {f : Fault}
    (h : execA op dst opa opb s = .fault f) : ∃ a, f = .registerOutsideMemory a := by
  rw [execA_eq] at h
  split_ifs at h <;> exact ⟨_, (Host.Outcome.fault.inj h).symm⟩

/-- The I-class handler faults only at a missing register. -/
theorem execI_fault {merge : Word → Byte → Word} {d : RegField} {imm : Byte} {s : State} {f : Fault}
    (h : execI merge d imm s = .fault f) : ∃ a, f = .registerOutsideMemory a := by
  rw [execI_eq] at h
  split_ifs at h
  exact ⟨_, (Host.Outcome.fault.inj h).symm⟩

/-- The eight instructions raise none of the faults the spec names, in any state (R60). -/
theorem exec_fault_of_isInstruction {i : Instr} {s : State} {f : Fault} (hi : isInstruction i = true)
    (h : exec i s = .fault f) : ∃ a, f = .registerOutsideMemory a := by
  cases i with
  | and | or | xor | add | sub | cmp => exact execA_fault h
  | ldl | ldh => exact execI_fault h
  | invalidAClassTyp3 | invalidIClassOpc2to3 | invalidIClassOpc4to7 => exact absurd hi Bool.false_ne_true
  | unimplementedCls02to03 | unimplementedCls04to07 | unimplementedCls10to1F => exact absurd hi Bool.false_ne_true

/-! The faults of a step. -/

/-- The faults a step can raise in a state, each with its cause: the spec's three, and the model's own (log entry
4). -/
inductive StepFault (s : State) : Fault → Prop where
  /-- No cell at pc (R85). -/
  | noCell (hpc : s.mem.size ≤ s.pc) : StepFault s (.outOfBounds s.pc)
  /-- The class of the fetched word is not decoded (R83). -/
  | undecodedClass {w : Word} (hw : s.mem.read s.pc = some w) (h : kindOf (clsOf w) = .unimpl) :
      StepFault s (.unimplementedInstruction s.pc w)
  /-- The class of the fetched word is decoded, its sub-field is not (R84). -/
  | invalidSubEncoding {w : Word} (hw : s.mem.read s.pc = some w) (h : InvalidSubEncoding w) :
      StepFault s (.invalidEncoding s.pc w)
  /-- An operand's register is no cell of memory. -/
  | noRegister (a : Nat) : StepFault s (.registerOutsideMemory a)

/-- Everything a step can raise, in any state. -/
theorem step_fault {s : State} {f : Fault} (h : step s = .fault f) : StepFault s f := by
  obtain ⟨hpc, hs⟩ | ⟨hpc, hs⟩ := step_cases s
  · cases hs.symm.trans h
    exact .noCell hpc
  · have hread := Memory.read_inside hpc
    rw [hs] at h
    obtain hkind | hinvalid | hinstr := decode_cases (s.mem.cell s.pc)
    · rw [decode_of_unimpl hkind, exec_decodeUnimpl] at h
      cases h
      exact .undecodedClass hread hkind
    · rw [exec_of_invalidSubEncoding hinvalid] at h
      cases h
      exact .invalidSubEncoding hread hinvalid
    · obtain ⟨a, rfl⟩ := exec_fault_of_isInstruction hinstr h
      exact .noRegister a

/-- With the window inside memory a step raises only the spec's own faults (R17, R81). -/
theorem step_fault_code {s : State} {f : Fault} (hwin : s.windowInside) (h : step s = .fault f) : f.code ≠ none := by
  obtain ⟨t, ht⟩ | ⟨g, hg, hcode⟩ := step_completesOrNamedFault hwin
  · cases ht.symm.trans h
  · cases hg.symm.trans h
    exact hcode

/-- Settles O29: the dispatch gives the fault (R47), and `StepFault` no other cause of it. -/
theorem undecodedClassFaults : Obligations.UndecodedClassFaults := by
  refine ⟨fun s w hw hcls => ?_, fun s p w h => ?_⟩
  · obtain ⟨-, -, hundecoded, -⟩ := classDispatchOfStep s w hw
    exact hundecoded hcls
  · cases step_fault h with
    | undecodedClass hw hkind => exact ⟨rfl, hw, kindOf_eq_unimpl.mp hkind⟩

/-- Settles O31: an invalid sub-encoding raises the fault, and `StepFault` has no other cause of it. -/
theorem invalidSubEncodingFaults : Obligations.InvalidSubEncodingFaults := by
  refine ⟨fun s w hw hsub => ?_, fun s p w h => ?_⟩
  · apply hostStep_of_fault
    rw [step_of_read hw, exec_of_invalidSubEncoding (invalidSubEncoding_iff.mpr hsub)]
  · cases step_fault h with
    | invalidSubEncoding hw hsub => exact ⟨rfl, hw, invalidSubEncoding_iff.mp hsub⟩

/-- There is no cell at or above MEMSIZE (R35). -/
theorem Memory.read_outside {m : Memory} {a : Nat} (h : m.size ≤ a) : m.read a = none := if_neg h.not_gt

/-- Settles O33: with no cell to fetch the step faults (D4), and `StepFault` has no other cause of it. -/
theorem fetchOutsideMemoryFaults : Obligations.FetchOutsideMemoryFaults := by
  refine ⟨fun s hpc => ?_, fun s p h => ?_⟩
  · obtain ⟨-, hnone⟩ := stepRunsDecodedInstruction s
    exact hostStep_of_fault (hnone (Memory.read_outside hpc))
  · cases step_fault h with
    | noCell hpc => exact ⟨hpc, rfl⟩

/-! The host's side of a step. -/

/-- A completed step is silent (R103). -/
theorem hostStep_of_next {s t : State} (h : step s = .next t) : hostStep s = (t, .silent) := by
  simp [hostStep, h]

/-- Settles O34: a step is never refused, and the window invariant leaves `StepFault` the spec's three causes. -/
theorem stepAnswersStateOrReportedFault : Obligations.StepAnswersStateOrReportedFault := by
  intro s hwin
  cases hstep : step s with
  | next t => exact .inl ⟨t, rfl, hostStep_of_next hstep⟩
  | fault f =>
    refine .inr ⟨f, rfl, hostStep_of_fault hstep, ?_⟩
    cases step_fault hstep with
    | noCell hpc => exact .inl ⟨Memory.read_outside hpc, rfl⟩
    | undecodedClass hw => exact .inr ⟨_, hw, .inl rfl⟩
    | invalidSubEncoding hw => exact .inr ⟨_, hw, .inr rfl⟩
    | noRegister a => exact absurd rfl (step_fault_code hwin hstep)
  | refused r => exact absurd hstep (step_ne_refused s r)

/-- However often a faulting core is stepped, its state stays (R88). -/
theorem hostRun_steps_of_fault {s : State} {f : Fault} (h : step s = .fault f) (n : Nat) :
    hostRun (List.replicate n .step) s = s := by
  induction n with
  | zero => rfl
  | succ n ih => rw [List.replicate_succ, hostRun, hostAct, hostStep_of_fault h, ih]

/-- Settles O36: the state is still the one that faulted, so the next step faults as before. -/
theorem repeatedStepRepeatsFault : Obligations.RepeatedStepRepeatsFault := by
  intro s f n h
  rw [hostRun_steps_of_fault h]
  exact ⟨rfl, hostStep_of_fault h⟩

end Sys2Proof.Machine
end

section
/-! An unloaded core: it fetches zero words, each of them AND r0, r0, r0, up to the end of memory
(spec/30_encoding.md R62; spec/70_reset_and_hazards.md R102). -/

namespace Sys2Proof.Machine

/-- A step with no cell at pc faults (R85, D4). -/
theorem step_outside {s : State} (h : s.mem.size ≤ s.pc) : step s = .fault (.outOfBounds s.pc) := by
  obtain ⟨-, hnone⟩ := stepRunsDecodedInstruction s
  exact hnone (Memory.read_outside h)

/-- A run whose first step faults is that fault, however long it is. -/
theorem runSteps_succ_of_fault {s : State} {f : Fault} (h : step s = .fault f) (k : Nat) :
    runSteps (k + 1) s = .fault f := by
  rw [runSteps, h]

/-- The zero word is AND r0, r0, r0 (R62). -/
theorem decode_zeroWord : decode 0#16 = .and 0#3 0#3 0#3 := decode_eq_iff.mpr ⟨rfl, rfl⟩

/-- A core constructed with nothing loaded, n steps later: pc has advanced by n, and the first step has set Z. -/
def State.unloadedAfter (c : Config) (n : Nat) : State :=
  { State.construct c with pc := c.startPc + n, Z := decide (0 < n) }

/-- The ALU's answer to AND r0, r0, r0 on an unloaded core: the zero word with Z set, C and V passed through (R71). -/
theorem aOut_unloadedAfter (c : Config) (n : Nat) :
    aOut .and 0#3 0#3 (State.unloadedAfter c n) =
      { res := 0#16, wr := true, Z := true, S := false, C := false, V := false } := by
  have hreg : (State.unloadedAfter c n).reg (regIndex 0#3) = 0#16 := rfl
  have hcarry : (State.unloadedAfter c n).C = false := rfl
  have hoverflow : (State.unloadedAfter c n).V = false := rfl
  simp [aOut, alu, hreg, hcarry, hoverflow, aluLogic_eq]

/-- AND r0, r0, r0 on a zero r0 writes 0x0000, which leaves a zero-filled memory as it is, and sets Z (R102). -/
theorem step_unloadedAfter {c : Config} (hlegal : c.legal = true) {n : Nat} (h : c.startPc + n < c.memSize) :
    step (State.unloadedAfter c n) = .next (State.unloadedAfter c (n + 1)) := by
  have hwin : (State.unloadedAfter c n).windowInside := (State.construct_inv hlegal).1
  have hzero : (State.unloadedAfter c n).mem.read (State.unloadedAfter c n).pc = some 0#16 := Memory.read_inside h
  have hexec := execA_inside hwin .and 0#3 0#3 0#3
  rw [aOut_unloadedAfter] at hexec
  rw [step_of_read hzero, decode_zeroWord]
  exact hexec

/-- n steps that all begin inside memory. -/
theorem runSteps_unloadedAfter {c : Config} (hlegal : c.legal = true) (n : Nat) {k : Nat}
    (h : c.startPc + (k + n) ≤ c.memSize) :
    runSteps n (State.unloadedAfter c k) = .next (State.unloadedAfter c (k + n)) := by
  induction n generalizing k with
  | zero => rfl
  | succ n ih =>
    refine runSteps_succ_eq_next.mpr ⟨_, step_unloadedAfter hlegal (by omega), ?_⟩
    rw [ih (by omega), Nat.add_right_comm, Nat.add_assoc]

/-- Settles O44: the run from construction is `runSteps_unloadedAfter` from k = 0, and at MEMSIZE there is no cell to
fetch. -/
theorem unloadedCoreRunsZeroWords : Obligations.UnloadedCoreRunsZeroWords := by
  intro c n hlegal hn t
  refine ⟨?_, fun hend k => ?_⟩
  · have hrun := runSteps_unloadedAfter hlegal n (k := 0) (by rwa [Nat.zero_add])
    rwa [Nat.zero_add] at hrun
  · have hfault : step t = .fault (.outOfBounds (c.startPc + n)) := step_outside (s := t) hend.ge
    rw [runSteps_succ_of_fault hfault, hend]

end Sys2Proof.Machine
end

section
/-! The host's mutators, run scope and reads, each by what it changes and what it leaves
(spec/70_reset_and_hazards.md R104 to R106, R108, R109). -/

namespace Sys2Proof.Machine

/-- Another memory of the same size is no change of control state, flags or pc. -/
theorem State.setMem_keeps {s : State} {m : Memory} (h : m.size = s.mem.size) :
    SameControl s (s.setMem m) ∧ SameFlags s (s.setMem m) ∧ (s.setMem m).pc = s.pc :=
  ⟨⟨rfl, rfl, rfl, h⟩, ⟨rfl, rfl, rfl, rfl⟩, rfl⟩

/-! Register writes (R104). -/

/-- Every register index and every word is a good argument of the host's register write (D20). -/
theorem writeRegisterExternal_inside {s : State} (hwin : s.windowInside) (hactive : s.active = false) (r : RegIndex)
    (v : Word) : writeRegisterExternal r.toNat v.toNat s = s.setMem (s.mem.put (s.W + r.toNat) v) := by
  have hr : r.toNat < 16 := r.isLt
  have hv : v.toNat < 65536 := v.isLt
  have hargs : (0 : Int) ≤ r.toNat ∧ (r.toNat : Int) ≤ 15 ∧ (0 : Int) ≤ v.toNat ∧ (v.toNat : Int) ≤ 65535 := by omega
  have hwrite : s.mem.write (s.W + r.toNat) v = some (s.mem.put (s.W + r.toNat) v) :=
    Memory.write_inside (by omega) v
  simp [writeRegisterExternal, hactive, hargs, hwrite]

/-- A register or a value out of range leaves the state, in and out of the run scope (D20). -/
theorem writeRegisterExternal_of_bad_argument {r v : Int} (h : r < 0 ∨ 15 < r ∨ v < 0 ∨ 65535 < v) (s : State) :
    writeRegisterExternal r v s = s := by
  have hargs : ¬ (0 ≤ r ∧ r ≤ 15 ∧ 0 ≤ v ∧ v ≤ 65535) := by omega
  simp [writeRegisterExternal, hargs]

/-- Settles O48: a good write is one memory write to the cell W + r, a bad one is refused. -/
theorem hostRegisterWriteSetsOneCell : Obligations.HostRegisterWriteSetsOneCell := by
  refine ⟨fun s r v hwin hactive => ?_, fun s r v hbad => ?_⟩
  · intro t
    have ht : t = s.setMem (s.mem.put (s.W + r.toNat) v) := writeRegisterExternal_inside hwin hactive r v
    rw [ht]
    exact ⟨Memory.cell_put_self _ _ _, fun b hb => Memory.read_put_ne _ hb v,
      State.setMem_keeps (Memory.put_size _ _ _)⟩
  · exact congrArg (·, HostReply.silent) (writeRegisterExternal_of_bad_argument hbad s)

/-! Loads (R106). -/

/-- A cell of a load that fits reads as its word. -/
theorem Memory.read_putAll_inside {m : Memory} {start : Nat} {ws : List Word} (h : start + ws.length ≤ m.size)
    {k : Nat} {w : Word} (hk : ws[k]? = some w) : (m.putAll start ws).read (start + k) = some w := by
  obtain ⟨hlt, hw⟩ := List.getElem?_eq_some_iff.mp hk
  rw [Memory.read_inside (by rw [Memory.putAll_size]; omega), Memory.cell_putAll_inside m start ws k hlt, hw]

/-- A cell outside the load reads as before. -/
theorem Memory.read_putAll_outside (m : Memory) {start a : Nat} {ws : List Word}
    (h : a < start ∨ start + ws.length ≤ a) : (m.putAll start ws).read a = m.read a := by
  have hcell : (m.putAll start ws).cell a = m.cell a := by
    obtain hbelow | habove := h
    · exact Memory.cell_putAll_below m hbelow ws
    · exact Memory.cell_putAll_above m habove
  rw [Memory.read, Memory.read, Memory.putAll_size, hcell]

/-- Outside the run scope the bound alone decides a load (D16). -/
theorem loadProgram_of_not_active {s : State} (h : s.active = false) (ws : List Word) (start : Nat) :
    loadProgram ws start s =
      if start + ws.length ≤ s.mem.size then (s.setMem (s.mem.putAll start ws), .silent)
      else (s, .loadOutOfBounds) := by
  simp [loadProgram, h]

/-- Settles O50: a load that fits changes memory as `Memory.putAll` does, any other is refused whole. -/
theorem hostLoadWritesItsCellsOnly : Obligations.HostLoadWritesItsCellsOnly := by
  intro s ws start hactive
  have hload : hostAct (.loadProgram ws start) s = loadProgram ws start s := rfl
  rw [hload, loadProgram_of_not_active hactive]
  refine ⟨fun hfits => ?_, fun hover => if_neg hover.not_ge⟩
  exact ⟨_, if_pos hfits, fun k w hk => Memory.read_putAll_inside hfits hk, fun a ha => Memory.read_putAll_outside _ ha,
    State.setMem_keeps (Memory.putAll_size _ _ _)⟩

/-! The program counter and the run scope (R105, R108). -/

/-- Settles O49: the new pc is not checked, so only the next fetch meets the end of memory. -/
theorem hostSetsPcUnchecked : Obligations.HostSetsPcUnchecked := by
  intro s p hactive
  refine ⟨?_, fun hp => step_outside hp⟩
  simp [hostAct, setPcExternal, hactive]

/-- No step changes active: a completed one keeps all control state, a faulting one the whole state (R22, R81). -/
theorem hostStep_active (s : State) : (hostStep s).1.active = s.active := by
  cases hstep : step s with
  | next t =>
    rw [hostStep_of_next hstep]
    obtain ⟨-, hactive, -, -⟩ := (step_completes hstep).control
    exact hactive
  | fault f => rw [hostStep_of_fault hstep]
  | refused r => exact absurd hstep (step_ne_refused s r)

/-- Settles O51: entering, leaving and rebinding are their definitions, and a step keeps active. -/
theorem runScopeIsSetAndClearedByHostOnly : Obligations.RunScopeIsSetAndClearedByHostOnly := by
  intro s
  exact ⟨rfl, rfl, rfl, rfl, hostStep_active s, fun h => rfl⟩

/-! Reads (R109). -/

/-- The host's sixteen registers are the cells W to W + 15 in order (R36). -/
theorem map_reg_allRegs (s : State) : allRegs.map s.reg = (List.range 16).map fun k => s.mem.cell (s.W + k) := by
  have hindices : List.range 16 = allRegs.map BitVec.toNat := by decide
  rw [hindices, List.map_map]
  rfl

/-- Settles O52: a read of a register or a cell finds a cell that exists, the other reads are fields of the state. -/
theorem hostReadsAnswerTheState : Obligations.HostReadsAnswerTheState := by
  intro s hwin
  refine ⟨fun q => rfl, fun r => ?_, congrArg HostReply.words (map_reg_allRegs s), fun a ha => ?_, rfl, rfl, rfl, rfl⟩
  · have hr : r.toNat < 16 := r.isLt
    exact hostRead_register hwin (Nat.le_of_lt_succ hr)
  · simp [hostRead, Memory.read_inside ha]

end Sys2Proof.Machine
end
